-- ==== Sys2Proof/Word.lean ====
section
/-! DEFINITION. The words of fletcher_checksum_engine: octets, 32-bit register words and the three control-word formats of spec/30_encoding.md R50. -/

namespace Sys2Proof

/-- A 32-bit register word (R11). -/
abbrev Word := BitVec 32

/-- An octet, an unsigned 8-bit value (R30). -/
abbrev Octet := BitVec 8

/-- A word of format AOP: `aop` in bits 9:8, `b` in bits 7:0 (R50). -/
abbrev AopWord := BitVec 10

/-- A word of format IEN: `ien` in bit 0 (R50). -/
abbrev IenWord := BitVec 1

/-- A control word in one of the three formats of R50. Each format reaches its own block: `cmd` the engine's
command port `x[2]`, `aop` the accumulator, `ien` the inverter. -/
inductive ControlWord where
  /-- Format CMD, 32 bits. -/
  | cmd (w : Word)
  /-- Format AOP, 10 bits. -/
  | aop (w : AopWord)
  /-- Format IEN, 1 bit. -/
  | ien (w : IenWord)
  deriving DecidableEq, Repr

end Sys2Proof
end

