-- ==== Sys2Proof/Config.lean ====
section
/-! DEFINITION. The constants of the hardware, the values the model names where the spec names none, and the free values. -/

namespace Sys2Proof

/-- `MOD`, the modulus of both sums and of the first inverter formula (R3). -/
def Config.modulus : Nat := 255

/-- `MODX`, the most octets one segment holds (R4). -/
def Config.maxSegment : Nat := 4102

/-- The inverter constant 510 of the second inverter formula (R94). -/
def Config.inverterConstant : Nat := 510

/-- One more than the largest buffer capacity: `CAP <= 2^31 - 1` (R5). -/
abbrev Config.capLimit : Nat := 2147483648

/-- The capacity of the buffer attached in `State.reset`. DESIGN CHOICE, log 1: `CAP` is the open parameter P1, and
every state carries its own `cap`; only statements about `State.reset` rest on this value (unsafe for those). -/
def Config.resetCap : Fin Config.capLimit := 2147483647

/-- What an octet of the buffer that no entry lists reads as. DESIGN CHOICE, log 7: the content at power-up is
unspecified (R26, U10); unsafe for statements about `State.reset`, since a state may list any content. -/
def Config.powerUpOctet : Octet := 0

/-- The value a register holds in `State.reset` where R27 leaves it unspecified. DESIGN CHOICE, log 2, unsafe. -/
def Config.unspecifiedReset : Nat := 0

/-- The free values: the `n`-th word drawn. Nothing constrains it. Drawn where the spec leaves a value unspecified:
`RESULT` after an exception (U4; log 4), the internal registers after a reset event (R27; log 3), a sum or an
inverter octet for which the spec states no value that fits the register (logs 5 and 6). Safe for one instance in one
run; unsafe for a comparison of two instances or runs whose counters agree, which draw the same words (log 15). -/
opaque Config.freeWord : Nat → BitVec 32

end Sys2Proof
end

