-- ==== Sys2Proof/Machine/Input.lean ====
section
/-! DEFINITION. What the outside does to the machine: the host-visible registers, the inputs a step takes, and the host's written syntax. -/

namespace Sys2Proof.Machine

/-- The five host-visible registers, numbered 0 to 4 (R11). -/
inductive HostReg where
  /-- `x[0]` (R12). -/
  | len
  /-- `x[1]` (R13). -/
  | k
  /-- `x[2]`, the command port (R14). -/
  | cmd
  /-- `x[3]` (R15). -/
  | status
  /-- `x[4]` (R16). -/
  | result
  deriving DecidableEq, Repr

/-- The number of a register (R11). -/
def hostRegNumber : HostReg → Nat
  | .len => 0
  | .k => 1
  | .cmd => 2
  | .status => 3
  | .result => 4

/-- The register of a number; there is none above 4 (R11). -/
def hostRegOfNumber : Nat → Option HostReg
  | 0 => some .len
  | 1 => some .k
  | 2 => some .cmd
  | 3 => some .status
  | 4 => some .result
  | _ => none

/-- One interaction of the outside with the machine. The step takes them one at a time (log 8). -/
inductive Input where
  /-- `WR x[i], w`: a host write of a register; a write of `cmd` starts an operation (R14, R63). -/
  | writeReg (r : HostReg) (w : Word)
  /-- `RD x[i]`: a host read of a register (R63). -/
  | readReg (r : HostReg)
  /-- The host writes one octet of its buffer, outside any operation (R10). -/
  | writeBuf (i : Nat) (b : Octet)
  /-- The host reads one octet of its buffer, outside any operation (R10). -/
  | readBuf (i : Nat)
  /-- The reset event, between operations (R170, R171). -/
  | reset
  /-- An AOP word at the accumulator's input (R70). DESIGN CHOICE, log 9: inside an operation the sequencer gives it. -/
  | aop (w : AopWord)
  /-- An IEN word at the inverter's input (R90). DESIGN CHOICE, log 9: inside an operation the sequencer gives it. -/
  | ien (w : IenWord)
  deriving DecidableEq, Repr

/-- The written syntax of a host's operations (R63, R64). -/
inductive HostOp where
  /-- `ENCODE len, k` -/
  | encode (len k : Int)
  /-- `VERIFY len, k` -/
  | verify (len k : Int)
  /-- `SUM len`, the pseudo-operation `ENCODE len, 0` (R64). -/
  | sum (len : Int)
  deriving DecidableEq, Repr

end Sys2Proof.Machine
end

