-- ==== Sys2Proof/Syntax.lean ====
section
/-! DEFINITION. The operations of the engine, one constructor per row of spec/opcode_table.json. -/

namespace Sys2Proof

/-- The two operations a host issues and the six micro-operations of the sub-blocks (30_encoding.md section 10).
The pseudo-operation SUM is ENCODE with `K = 0` (R64) and has no constructor of its own. -/
inductive Instr where
  /-- ENCODE (R111). Its operands are `LEN`, `K` and the buffer. -/
  | encode
  /-- VERIFY (R114). Its operands are `LEN`, `K` and the buffer. -/
  | verify
  /-- A.HOLD (R71): the accumulator keeps its sums. -/
  | aHold
  /-- A.CLR (R72): the accumulator clears its sums. -/
  | aClr
  /-- A.ABS b (R73): the accumulator absorbs the octet `b`. -/
  | aAbs (b : Octet)
  /-- A.RED (R74): the accumulator reduces its sums modulo 255. -/
  | aRed
  /-- I.HOLD (R91): the inverter keeps its octets. -/
  | iHold
  /-- I.INV (R92): the inverter computes and latches its octets. -/
  | iInv
  deriving DecidableEq, Repr

end Sys2Proof
end

