-- ==== Sys2Proof/WellFormed.lean ====
section
/-! DEFINITION. What a well-formed instruction, input and host operation is. -/

namespace Sys2Proof

/-- A well-formed instruction. The types of `Instr` leave nothing to check: the only operand, the octet of A.ABS,
is a value of exactly the 8 bits of field `b` (R61, R73). The checks with something to refuse are those of the
inputs and of the host's syntax below. -/
def Instr.wellFormed : Instr → Bool
  | .encode => true
  | .verify => true
  | .aHold => true
  | .aClr => true
  | .aAbs _ => true
  | .aRed => true
  | .iHold => true
  | .iInv => true

/-- A well-formed input for a machine with a buffer of `cap` octets: a host buffer access names an index that
exists, `0 <= i < CAP` (R34). -/
def Machine.Input.wellFormed (cap : Nat) : Machine.Input → Bool
  | .writeBuf i _ => decide (i < cap)
  | .readBuf i => decide (i < cap)
  | .writeReg _ _ => true
  | .readReg _ => true
  | .reset => true
  | .aop _ => true
  | .ien _ => true

/-- An integer that a signed 32-bit operand register expresses (R12, R13): values beyond it cannot be issued (D3). -/
def operandFits (v : Int) : Bool := decide (-2147483648 ≤ v) && decide (v ≤ 2147483647)

/-- A well-formed host operation: its operands can be expressed in `LEN` and `K`. -/
def Machine.HostOp.wellFormed : Machine.HostOp → Bool
  | .encode len k => operandFits len && operandFits k
  | .verify len k => operandFits len && operandFits k
  | .sum len => operandFits len

end Sys2Proof
end

