-- ==== Sys2Proof/Decode.lean ====
section
/-! DEFINITION. Decoding of the three control-word formats, the encoder, and the host's written syntax (spec/30_encoding.md). -/

namespace Sys2Proof

/-- Why a control word is no instruction. -/
inductive DecodeError where
  /-- A word written to `x[2]` that is neither ENCODE nor VERIFY (R52). -/
  | illegalCommand (w : Word)
  deriving DecidableEq, Repr

/-- The command word of ENCODE (R51). -/
def encodeCommand : Word := 0x00000001

/-- The command word of VERIFY (R51). -/
def verifyCommand : Word := 0x00000002

/-- Format CMD: all 32 bits are compared (R51), every other word is illegal (R52). -/
def decodeCmd (w : Word) : Except DecodeError Instr :=
  if w = encodeCommand then .ok .encode
  else if w = verifyCommand then .ok .verify
  else .error (.illegalCommand w)

/-- Field `aop`, bits 9:8 of an AOP word (R50). -/
def aopField (w : AopWord) : BitVec 2 := w.extractLsb 9 8

/-- Field `b`, bits 7:0 of an AOP word (R50). -/
def aopOctet (w : AopWord) : Octet := w.extractLsb 7 0

/-- Format AOP: `aop` selects the micro-operation; `b` is used by A.ABS only (R61). -/
def decodeAop (w : AopWord) : Instr :=
  if aopField w = 0b00 then .aHold
  else if aopField w = 0b01 then .aClr
  else if aopField w = 0b10 then .aAbs (aopOctet w)
  else .aRed

/-- Format IEN: `ien` selects the micro-operation (R62). -/
def decodeIen (w : IenWord) : Instr :=
  if w = 0 then .iHold else .iInv

/-- Decoding of a control word, total; only a command word can be rejected. -/
def decode : ControlWord → Except DecodeError Instr
  | .cmd w => decodeCmd w
  | .aop w => .ok (decodeAop w)
  | .ien w => .ok (decodeIen w)

/-- An AOP word from its two fields (R50). -/
def aopWord (aop : BitVec 2) (b : Octet) : AopWord := aop ++ b

/-- The word of an instruction (30_encoding.md section 10); a field `b` that a micro-operation ignores is 0. -/
def encode : Instr → ControlWord
  | .encode => .cmd encodeCommand
  | .verify => .cmd verifyCommand
  | .aHold => .aop (aopWord 0b00 0)
  | .aClr => .aop (aopWord 0b01 0)
  | .aAbs b => .aop (aopWord 0b10 b)
  | .aRed => .aop (aopWord 0b11 0)
  | .iHold => .ien 0
  | .iInv => .ien 1

/-- The control word with bits `w`, in the format whose width the opcode table gives as `nbits`: 32 for CMD, 10 for
AOP and 1 for IEN, or the same in whole bytes. There is no word where `w` has a bit the format does not have. -/
def tableControlWord (nbits w : Nat) : Option ControlWord :=
  if nbits = 32 then (if w < 2 ^ 32 then some (.cmd (BitVec.ofNat 32 w)) else none)
  else if nbits = 16 ∨ nbits = 10 then (if w < 2 ^ 10 then some (.aop (BitVec.ofNat 10 w)) else none)
  else if nbits = 8 ∨ nbits = 1 then (if w < 2 ^ 1 then some (.ien (BitVec.ofNat 1 w)) else none)
  else none

/-- The instruction the decoder reads from a word numbered as spec/opcode_table.json numbers it. -/
def decodeTableWord (nbits w : Nat) : Option Instr :=
  match tableControlWord nbits w with
  | some cw => (decode cw).toOption
  | none => none

/-- The 32-bit word a host writes for an integer: `v mod 2^32` (R63). -/
def hostWord (v : Int) : Word := BitVec.ofInt 32 v

/-- The three register writes of an operation, `LEN`, then `K`, then the command word that starts it (R63). -/
def hostWrites (len k : Int) (command : Word) : List Machine.Input :=
  [.writeReg .len (hostWord len), .writeReg .k (hostWord k), .writeReg .cmd command]

/-- The host's register writes of a written operation (R63, R64). -/
def expandHostOp : Machine.HostOp → List Machine.Input
  | .encode len k => hostWrites len k encodeCommand
  | .verify len k => hostWrites len k verifyCommand
  | .sum len => hostWrites len 0 encodeCommand

end Sys2Proof
end

