-- ==== Sys2Proof/Machine/State.lean ====
section
/-! DEFINITION. The state of the machine, its stops, its exceptions, and the state after reset. -/

namespace Sys2Proof.Machine

/-- Everything the spec gives one engine and its buffer, as plain data, and three fields of the model's own. -/
structure State where
  /-- `LEN`, `x[0]` (R12). -/
  len : Word
  /-- `K`, `x[1]` (R13). -/
  k : Word
  /-- `STATUS`, `x[3]` (R15). -/
  status : Word
  /-- `RESULT`, `x[4]` (R16). -/
  result : Word
  /-- `C0`, the first running sum (R17). -/
  c0 : Word
  /-- `C1`, the second running sum (R17). -/
  c1 : Word
  /-- `IQ`, the first derived octet (R18). -/
  iq : Octet
  /-- `IR`, the second derived octet (R18). -/
  ir : Octet
  /-- `IDX`, the index of the next octet to read (R19). -/
  idx : Word
  /-- `SEGEND`, one past the last octet of the current segment (R19). -/
  segend : Word
  /-- `CAP`, the capacity of the attached buffer; no step changes it (R5, R22; log 1). -/
  cap : Fin Config.capLimit
  /-- `BUF`, in canonical form: addresses rising, no entry equal to `Config.powerUpOctet` (R30; log 7). -/
  buf : List Host.Cell
  /-- The model's own: the inputs the outside has ready, oldest first (log 8). -/
  pending : List Input
  /-- The model's own: the values host reads have returned, newest first (log 13). -/
  reads : List Word
  /-- The model's own: how many free values this instance has drawn (logs 4, 15). -/
  freeCount : Nat
  deriving DecidableEq, Repr

/-- Why the machine stops. -/
inductive Fault where
  /-- Raised by `memRead` and `memWrite` for an index at or above `CAP`, which does not exist (R34). Only a host's
  buffer access can name one: the engine's accesses are inside the buffer (R41). Safe: the run stops. -/
  | outsideBuffer
  deriving DecidableEq, Repr

/-- Why an instruction has no meaning. -/
inductive Refusal where
  /-- Raised by an arm of `exec` that has no meaning yet; no arm is left. Safe: the run stops. -/
  | notModelled (mnemonic : String)
  deriving DecidableEq, Repr

/-- The causes of InvalidArgument, in the order of their codes 1 to 5 (R56). -/
inductive Cause where
  /-- `LEN_NEGATIVE`, `len < 0`. -/
  | lenNegative
  /-- `LEN_EXCEEDS_CAP`, `len > CAP`. -/
  | lenExceedsCap
  /-- `K_NEGATIVE`, `k < 0`. -/
  | kNegative
  /-- `K_EXCEEDS_LEN`, `k > len`. -/
  | kExceedsLen
  /-- `K_NO_ROOM`, `k > 0` and `k = len`. -/
  | kNoRoom
  deriving DecidableEq, Repr

/-- The two exceptions of the engine (R140). Taking one is a next state, not a fault. -/
inductive Exception where
  /-- Raised by the argument check of ENCODE and VERIFY (R141). -/
  | invalidArgument (cause : Cause)
  /-- Raised by a command word that is neither ENCODE nor VERIFY (R142). -/
  | illegalCommand
  deriving DecidableEq, Repr

/-- The machine right after reset (R26, R170): the host-visible registers 0, nothing listed in the buffer, the
engine idle. The internal registers, which R27 leaves unspecified, hold `Config.unspecifiedReset` (log 2); the
capacity is `Config.resetCap` (log 1). -/
def State.reset : State where
  len := 0
  k := 0
  status := 0
  result := 0
  c0 := BitVec.ofNat 32 Config.unspecifiedReset
  c1 := BitVec.ofNat 32 Config.unspecifiedReset
  iq := BitVec.ofNat 8 Config.unspecifiedReset
  ir := BitVec.ofNat 8 Config.unspecifiedReset
  idx := BitVec.ofNat 32 Config.unspecifiedReset
  segend := BitVec.ofNat 32 Config.unspecifiedReset
  cap := Config.resetCap
  buf := []
  pending := []
  reads := []
  freeCount := 0

end Sys2Proof.Machine
end

