-- ==== Sys2Proof/Machine/Flags.lean ====
section
/-! DEFINITION. The predicate VALID, the combined value, and the layout of STATUS and RESULT. The engine has no flags (R20). -/

namespace Sys2Proof.Machine

/-- `VALID`: `C0 = 0 and C1 = 0`, a predicate and no stored flag (R20). -/
def valid (s : State) : Bool := s.c0 == 0 && s.c1 == 0

/-- The combined value `(C1 << 8) | C0` of the sums, zero-extended to 32 bits (R57, R60). The sums at the end of an
accumulation are below 255 (R79), so that the value fits 16 bits. -/
def combinedValue (s : State) : Word := (s.c1 <<< 8) ||| s.c0

/-- What VERIFY writes to `RESULT`: `VALID` in bit 0 and zero above it (R59). -/
def verdictWord (s : State) : Word := if valid s then 1 else 0

/-- `STATUS.CODE`, bits 1:0 (R55). -/
def statusCode (w : Word) : BitVec 2 := w.extractLsb 1 0

/-- `STATUS.CAUSE`, bits 6:4 (R55). -/
def statusCause (w : Word) : BitVec 3 := w.extractLsb 6 4

/-- A STATUS word: `CODE` in bits 1:0, `CAUSE` in bits 6:4, every other bit 0 (R55). -/
def statusOf (code : BitVec 2) (cause : BitVec 3) : Word :=
  (cause.setWidth 32 <<< 4) ||| code.setWidth 32

/-- The code of a cause (R56). -/
def causeCode : Cause → BitVec 3
  | .lenNegative => 1
  | .lenExceedsCap => 2
  | .kNegative => 3
  | .kExceedsLen => 4
  | .kNoRoom => 5

/-- The STATUS word of an operation that ended well: `CODE = 0`, `CAUSE = 0` (R55). -/
def statusOk : Word := statusOf 0 0

/-- The STATUS word of an exception (R55, R140). -/
def exceptionStatus : Exception → Word
  | .invalidArgument cause => statusOf 1 (causeCode cause)
  | .illegalCommand => statusOf 2 0

end Sys2Proof.Machine
end

