-- ==== Sys2Proof/Machine/Operands.lean ====
section
/-! DEFINITION. Operand decoding and the argument check of ENCODE and VERIFY. -/

namespace Sys2Proof.Machine

/-- `len := sext_32(x[0])` (R12, R54). -/
def operandLen (s : State) : Int := s.len.toInt

/-- `k := sext_32(x[1])` (R13, R54). -/
def operandK (s : State) : Int := s.k.toInt

/-- The zero-based index of the first octet of the checksum field, `k - 1` (R33). -/
def fieldFirst (k : Int) : Nat := (k - 1).toNat

/-- The zero-based index of the second octet of the checksum field, `k` (R33). -/
def fieldSecond (k : Int) : Nat := k.toNat

/-- CHECK_ARGS (R141): the first violation in the listed order, or none where the arguments are legal. -/
def checkArgs (cap : Nat) (len k : Int) : Option Cause :=
  if len < 0 then some .lenNegative
  else if (cap : Int) < len then some .lenExceedsCap
  else if k < 0 then some .kNegative
  else if len < k then some .kExceedsLen
  else if 0 < k ∧ k = len then some .kNoRoom
  else none

end Sys2Proof.Machine
end

