-- ==== Sys2Proof/Machine/Ops.lean ====
section
/-! DEFINITION. The named operations over memory and registers, taking an exception, the reset event, and sequencing of outcomes. -/

namespace Sys2Proof.Machine

/-- The octet at an address of a buffer; what no entry lists reads as `Config.powerUpOctet` (log 7). -/
def Memory.read : List Host.Cell → Nat → Octet
  | [], _ => Config.powerUpOctet
  | (b, w) :: m, a => if b = a then w else Memory.read m a

/-- A buffer with one octet changed, in canonical form: writing what an unlisted address reads as removes the entry. -/
def Memory.write : List Host.Cell → Nat → Octet → List Host.Cell
  | [], a, v => if v = Config.powerUpOctet then [] else [(a, v)]
  | (b, w) :: m, a, v =>
    if a < b then (if v = Config.powerUpOctet then (b, w) :: m else (a, v) :: (b, w) :: m)
    else if a = b then (if v = Config.powerUpOctet then m else (a, v) :: m)
    else (b, w) :: Memory.write m a v

/-- The canonical form: addresses strictly rising, and no entry equal to what an unlisted address reads as. -/
abbrev Memory.wf (m : List Host.Cell) : Prop :=
  m.Pairwise (fun c d => c.1 < d.1) ∧ ∀ c ∈ m, c.2 ≠ Config.powerUpOctet

/-! ### One named update for each piece of state -/

/-- `x[0] <- w` -/
def State.setLen (w : Word) (s : State) : State := { s with len := w }

/-- `x[1] <- w` -/
def State.setK (w : Word) (s : State) : State := { s with k := w }

/-- `x[3] <- w` -/
def State.setStatus (w : Word) (s : State) : State := { s with status := w }

/-- `x[4] <- w` -/
def State.setResult (w : Word) (s : State) : State := { s with result := w }

/-- `C0 <- a`, `C1 <- b` -/
def State.setSums (a b : Word) (s : State) : State := { s with c0 := a, c1 := b }

/-- `IQ <- a`, `IR <- b` -/
def State.setOctets (a b : Octet) (s : State) : State := { s with iq := a, ir := b }

/-- `IDX <- w` -/
def State.setIdx (w : Word) (s : State) : State := { s with idx := w }

/-- `SEGEND <- w` -/
def State.setSegend (w : Word) (s : State) : State := { s with segend := w }

/-- The buffer's content replaced. -/
def State.setBuf (m : List Host.Cell) (s : State) : State := { s with buf := m }

/-- The inputs that are still to be taken replaced. -/
def State.setPending (l : List Input) (s : State) : State := { s with pending := l }

/-- A value delivered to a host that reads. -/
def State.deliver (w : Word) (s : State) : State := { s with reads := w :: s.reads }

/-- The count of free values drawn replaced. -/
def State.setFreeCount (n : Nat) (s : State) : State := { s with freeCount := n }

/-! ### Memory accesses -/

/-- `MemRead(i, 1)`: the octet at index `i`, which needs `0 <= i < CAP` (R34). -/
def memRead (s : State) (i : Nat) : Except Fault Octet :=
  if i < s.cap.val then .ok (Memory.read s.buf i) else .error .outsideBuffer

/-- `MemWrite(i, 1, v)`: makes `BUF[i] = v` and changes no other octet, which needs `0 <= i < CAP` (R34). -/
def memWrite (s : State) (i : Nat) (v : Octet) : Except Fault State :=
  if i < s.cap.val then .ok (s.setBuf (Memory.write s.buf i v)) else .error .outsideBuffer

/-! ### Narrowing an exact result into a register -/

/-- The 32-bit register value of an exact non-negative result. The spec's results fit (R6, R80); where a result does
not, no rule states a value, and the `draw`-th free value stands for it (log 5). -/
def latchWord (n draw : Nat) : Word := if n < 4294967296 then BitVec.ofNat 32 n else Config.freeWord draw

/-- How many free values `latchWord` draws. -/
def latchWordDraws (n : Nat) : Nat := if n < 4294967296 then 0 else 1

/-- The 8-bit register value of an exact integer. The inverter's results fit (R95); where one does not, no rule
states a value, and the low octet of the `draw`-th free value stands for it (log 6). -/
def latchOctet (v : Int) (draw : Nat) : Octet :=
  if 0 ≤ v ∧ v ≤ 255 then BitVec.ofInt 8 v else (Config.freeWord draw).setWidth 8

/-- How many free values `latchOctet` draws. -/
def latchOctetDraws (v : Int) : Nat := if 0 ≤ v ∧ v ≤ 255 then 0 else 1

/-! ### Exceptions and reset -/

/-- Taking an exception (R145): STATUS is written, RESULT gets an unspecified value, a word drawn afresh each time
(U4; log 4), and nothing else changes. Nothing is saved and control goes nowhere. There is no return from an
exception and nothing to restore (R147): the machine simply takes its next input. -/
def raise (e : Exception) (s : State) : State :=
  ((s.setStatus (exceptionStatus e)).setResult (Config.freeWord s.freeCount)).setFreeCount (s.freeCount + 1)

/-- The reset event (R170): the host-visible registers 0, the internal registers unspecified (R27; free values,
log 3), the buffer untouched. Inputs still pending and values already read belong to the outside and stay. -/
def resetEvent (s : State) : State :=
  { s with
    len := 0, k := 0, status := 0, result := 0
    c0 := Config.freeWord s.freeCount
    c1 := Config.freeWord (s.freeCount + 1)
    iq := (Config.freeWord (s.freeCount + 2)).setWidth 8
    ir := (Config.freeWord (s.freeCount + 3)).setWidth 8
    idx := Config.freeWord (s.freeCount + 4)
    segend := Config.freeWord (s.freeCount + 5)
    freeCount := s.freeCount + 6 }

/-! ### Host register access -/

/-- What a host read of a register gives; `CMD` reads 0 (R14). -/
def readHostReg (s : State) : HostReg → Word
  | .len => s.len
  | .k => s.k
  | .cmd => 0
  | .status => s.status
  | .result => s.result

/-! ### Outcomes -/

/-- Run one outcome after another; a fault or a refusal stands. -/
def andThen {α β φ ρ : Type} (o : Host.Outcome α φ ρ) (f : α → Host.Outcome β φ ρ) : Host.Outcome β φ ρ :=
  match o with
  | .next a => f a
  | .fault r => .fault r
  | .refused r => .refused r

/-- The outcome of a computation whose only stop is a memory access. -/
def settle {α : Type} (r : Except Fault α) : Host.Outcome α Fault Refusal :=
  match r with
  | .ok a => .next a
  | .error f => .fault f

end Sys2Proof.Machine
end

