-- ==== Sys2Proof/Machine/Accumulator.lean ====
section
/-! DEFINITION. The sub-block modular_dual_accumulator: its micro-operations and the procedure ACCUMULATE (spec/40_modular_dual_accumulator.md). -/

namespace Sys2Proof.Machine

/-- Both sums cleared (R72). -/
def clearSums (s : State) : State := s.setSums 0 0

/-- `C0 <- C0 + b`, then `C1 <- C1 + C0` with the new `C0`; no reduction (R73). -/
def absorb (b : Octet) (s : State) : State :=
  let sum0 := s.c0.toNat + b.toNat
  let c0 := latchWord sum0 s.freeCount
  let drawn := s.freeCount + latchWordDraws sum0
  let sum1 := s.c1.toNat + c0.toNat
  (s.setSums c0 (latchWord sum1 drawn)).setFreeCount (drawn + latchWordDraws sum1)

/-- Both sums modulo 255 (R74). -/
def reduceSums (s : State) : State :=
  s.setSums (BitVec.ofNat 32 (s.c0.toNat % Config.modulus)) (BitVec.ofNat 32 (s.c1.toNat % Config.modulus))

/-- A.HOLD (R71). -/
def execAHold (s : State) : Host.Outcome State Fault Refusal := .next s

/-- A.CLR (R72). -/
def execAClr (s : State) : Host.Outcome State Fault Refusal := .next (clearSums s)

/-- A.ABS b (R73). -/
def execAAbs (b : Octet) (s : State) : Host.Outcome State Fault Refusal := .next (absorb b s)

/-- A.RED (R74). -/
def execARed (s : State) : Host.Outcome State Fault Refusal := .next (reduceSums s)

/-- `SEGEND <- min(IDX + MODX, len)` (R75). -/
def startSegment (len : Nat) (s : State) : State :=
  s.setSegend (BitVec.ofNat 32 (min (s.idx.toNat + Config.maxSegment) len))

/-- `IDX <- IDX + 1` (R19). -/
def advanceIdx (s : State) : State := s.setIdx (BitVec.ofNat 32 (s.idx.toNat + 1))

/-- `n` passes of the inner loop of ACCUMULATE: A.ABS of the octet at `IDX`, then `IDX <- IDX + 1` (R75). -/
def absorbOctets : Nat → State → Except Fault State
  | 0, s => .ok s
  | n + 1, s =>
    match memRead s s.idx.toNat with
    | .ok b => absorbOctets n (advanceIdx (absorb b s))
    | .error f => .error f

/-- One segment: from `IDX` to `SEGEND`, and A.RED at its end (R75, R76). -/
def accumulateSegment (len : Nat) (s : State) : Except Fault State :=
  let s1 := startSegment len s
  match absorbOctets (s1.segend.toNat - s1.idx.toNat) s1 with
  | .ok s2 => .ok (reduceSums s2)
  | .error f => .error f

/-- `n` segments, one after the other. -/
def accumulateSegments (len : Nat) : Nat → State → Except Fault State
  | 0, s => .ok s
  | n + 1, s =>
    match accumulateSegment len s with
    | .ok s1 => accumulateSegments len n s1
    | .error f => .error f

/-- The number of segments of the greedy partition, `ceil(len / MODX)` (R77). -/
def segmentCount (len : Nat) : Nat := (len + (Config.maxSegment - 1)) / Config.maxSegment

/-- ACCUMULATE(len): A.CLR, `IDX <- 0`, then the segments of `[0, len)` (R75). -/
def accumulate (len : Nat) (s : State) : Except Fault State :=
  accumulateSegments len (segmentCount len) ((clearSums s).setIdx 0)

end Sys2Proof.Machine
end

