-- ==== Sys2Proof/Machine/Inverter.lean ====
section
/-! DEFINITION. The sub-block checksum_inverter: its two formulas and its micro-operations (spec/41_checksum_inverter.md). -/

namespace Sys2Proof.Machine

/-- `IQ_OF(len, k, c0, c1)` (R93); `%` on `Int` by a positive divisor is the floored remainder of R7. -/
def iqOf (len k c0 c1 : Int) : Int :=
  let iq := ((len - k) * c0 - c1) % (Config.modulus : Int)
  if iq ≤ 0 then iq + (Config.modulus : Int) else iq

/-- `IR_OF(c0, iq)`, of the adjusted `iq` (R94). -/
def irOf (c0 iq : Int) : Int :=
  let ir := (Config.inverterConstant : Int) - c0 - iq
  if ir > (Config.modulus : Int) then ir - (Config.modulus : Int) else ir

/-- `IQ` and `IR` computed from the wires `len`, `k` and the accumulator's outputs, `iq` first (R92). -/
def invert (len k : Int) (s : State) : State :=
  let iq := iqOf len k s.c0.toNat s.c1.toNat
  let ir := irOf s.c0.toNat iq
  let drawn := s.freeCount + latchOctetDraws iq
  (s.setOctets (latchOctet iq s.freeCount) (latchOctet ir drawn)).setFreeCount (drawn + latchOctetDraws ir)

/-- I.HOLD (R91). -/
def execIHold (s : State) : Host.Outcome State Fault Refusal := .next s

/-- I.INV (R92); the wires `len` and `k` come from the operand registers (R90). -/
def execIInv (s : State) : Host.Outcome State Fault Refusal :=
  .next (invert (operandLen s) (operandK s) s)

end Sys2Proof.Machine
end

