-- ==== Sys2Proof/Machine/Engine.lean ====
section
/-! DEFINITION. The operations ENCODE and VERIFY, each one atomic step (spec/42_engine_operations.md). -/

namespace Sys2Proof.Machine

/-- The two octets of the field of `k` written, the lower index first (R40). -/
def storeField (k : Int) (first second : Octet) (s : State) : Except Fault State :=
  match memWrite s (fieldFirst k) first with
  | .ok s1 => memWrite s1 (fieldSecond k) second
  | .error f => .error f

/-- What ENCODE does before the accumulation: it zeroes the field where `k > 0` (R111, R112). -/
def prepareField (k : Int) (s : State) : Except Fault State :=
  if 0 < k then storeField k 0 0 s else .ok s

/-- What ENCODE does after the accumulation: I.INV and the two stores where `k > 0` (R111). -/
def insertOctets (len k : Int) (s : State) : Except Fault State :=
  if 0 < k then
    let s1 := invert len k s
    storeField k s1.iq s1.ir s1
  else .ok s

/-- The end of an operation that raised nothing: STATUS, then RESULT (R117). -/
def complete (result : Word) (s : State) : State := (s.setStatus statusOk).setResult result

/-- The body of ENCODE on legal arguments (R111); `RESULT` is the value from before the insertion. -/
def encodeBody (len k : Int) (s : State) : Except Fault State :=
  match prepareField k s with
  | .error f => .error f
  | .ok s1 =>
    match accumulate len.toNat s1 with
    | .error f => .error f
    | .ok s2 =>
      match insertOctets len k s2 with
      | .error f => .error f
      | .ok s3 => .ok (complete (combinedValue s2) s3)

/-- The body of VERIFY on legal arguments (R114). -/
def verifyBody (len : Int) (s : State) : Except Fault State :=
  match accumulate len.toNat s with
  | .error f => .error f
  | .ok s1 => .ok (complete (verdictWord s1) s1)

/-- The operands decoded and checked; a violation raises InvalidArgument before anything is touched (R110, R141). -/
def checked (body : Int → Int → State → Except Fault State) (s : State) : Host.Outcome State Fault Refusal :=
  match checkArgs s.cap.val (operandLen s) (operandK s) with
  | some cause => .next (raise (.invalidArgument cause) s)
  | none => settle (body (operandLen s) (operandK s) s)

/-- ENCODE (R111); with `K = 0` it is SUM (R113). -/
def execEncode (s : State) : Host.Outcome State Fault Refusal := checked encodeBody s

/-- VERIFY (R114); after the check `k` plays no part. -/
def execVerify (s : State) : Host.Outcome State Fault Refusal := checked (fun len _ => verifyBody len) s

end Sys2Proof.Machine
end

