-- ==== Sys2Proof/Machine/Dispatch.lean ====
section
/-! DEFINITION. The meaning of every instruction, one arm per constructor. -/

namespace Sys2Proof.Machine

def exec (i : Instr) (s : State) : Host.Outcome State Fault Refusal :=
  match i with
  | .encode => Sys2Proof.Machine.execEncode s
  | .verify => Sys2Proof.Machine.execVerify s
  | .aHold => Sys2Proof.Machine.execAHold s
  | .aClr => Sys2Proof.Machine.execAClr s
  | .aAbs b => Sys2Proof.Machine.execAAbs b s
  | .aRed => Sys2Proof.Machine.execARed s
  | .iHold => Sys2Proof.Machine.execIHold s
  | .iInv => Sys2Proof.Machine.execIInv s

end Sys2Proof.Machine
end

