-- ==== Sys2Proof/Machine/Ports.lean ====
section
/-! DEFINITION. How the machine takes one input from the outside: control words, host register and buffer accesses, reset. -/

namespace Sys2Proof.Machine

/-- A control word arrives at its block: it is decoded and run. Only a command word can fail to decode; it raises
IllegalCommand, before the operands are looked at (R52, R142, R144). -/
def runControlWord (cw : ControlWord) (s : State) : Host.Outcome State Fault Refusal :=
  match decode cw with
  | .ok i => exec i s
  | .error _ => .next (raise .illegalCommand s)

/-- A host write of a register: `LEN` and `K` take any word (R12, R13), `CMD` starts an operation (R14), writes of
`STATUS` and `RESULT` are ignored (R15, R16). -/
def writeHostReg (r : HostReg) (w : Word) (s : State) : Host.Outcome State Fault Refusal :=
  match r with
  | .len => .next (s.setLen w)
  | .k => .next (s.setK w)
  | .cmd => runControlWord (.cmd w) s
  | .status => .next s
  | .result => .next s

/-- A host read of one octet of the buffer. -/
def readHostBuf (i : Nat) (s : State) : Host.Outcome State Fault Refusal :=
  match memRead s i with
  | .ok b => .next (s.deliver (b.setWidth 32))
  | .error f => .fault f

/-- What the machine does with one input; each is one atomic step (R110, R171). -/
def takeInput (inp : Input) (s : State) : Host.Outcome State Fault Refusal :=
  match inp with
  | .writeReg r w => writeHostReg r w s
  | .readReg r => .next (s.deliver (readHostReg s r))
  | .writeBuf i b => settle (memWrite s i b)
  | .readBuf i => readHostBuf i s
  | .reset => .next (resetEvent s)
  | .aop w => runControlWord (.aop w) s
  | .ien w => runControlWord (.ien w) s

/-- The input that brings a control word to its block: a host write of `CMD`, or a word at a sub-block's input. -/
def inputOfControlWord : ControlWord → Input
  | .cmd w => .writeReg .cmd w
  | .aop w => .aop w
  | .ien w => .ien w

end Sys2Proof.Machine
end

