-- ==== Sys2Proof/Machine/Step.lean ====
section
/-! DEFINITION. One step: the machine takes the next pending input, or stays as it is where there is none. -/

namespace Sys2Proof.Machine

/-- One step. An engine with no input pending is idle, and nothing changes (R149). -/
def step (s : State) : Host.Outcome State Fault Refusal :=
  match s.pending with
  | [] => .next s
  | inp :: rest => takeInput inp (s.setPending rest)

/-- `s` with the control word of the opcode table's row placed as the next pending input: a host write of `CMD`, or a
word at a sub-block's input (log 8). Where the format has no such word, nothing is placed. -/
def State.withFetchWord (s : State) (nbits w : Nat) : State :=
  match tableControlWord nbits w with
  | some cw => s.setPending (inputOfControlWord cw :: s.pending)
  | none => s

end Sys2Proof.Machine
end

