-- ==== Sys2Proof/Machine/Instances.lean ====
section
/-! DEFINITION. Several engine instances, each with its own registers, attached to buffer memories that they may share (R25, R152; logs 14, 15). -/

namespace Sys2Proof.Machine

/-- An engine and the number of the buffer memory the host attached it to. Instances with the same number share it. -/
structure Attached where
  /-- Which buffer memory it is. -/
  memory : Nat
  /-- The instance's registers and its view of that memory. -/
  state : State
  deriving DecidableEq, Repr

/-- What an instance sees after the memory of number `memory` has come to hold `content`. -/
def showBuffer (memory : Nat) (content : List Host.Cell) (f : Attached) : Attached :=
  if f.memory = memory then ⟨f.memory, f.state.setBuf content⟩ else f

/-- One step of the instance at position `n`: the others do not act, and those attached to the same memory see what
the step left in it. An operation is one step, so that no two operations overlap (R46, R110; log 10).
DESIGN CHOICE, log 15: each instance counts its own draws of free values, so that instances whose `freeCount` agree
draw the same words; the spec relates the unspecified words of two instances in no way (R25, R27, U4). Unsafe for a
statement that compares them. -/
def stepInstance (n : Nat) (engines : List Attached) : Host.Outcome (List Attached) Fault Refusal :=
  match engines[n]? with
  | none => .next engines
  | some e => andThen (step e.state) fun t => .next ((engines.map (showBuffer e.memory t.buf)).set n ⟨e.memory, t⟩)

end Sys2Proof.Machine
end

