-- ==== Sys2Proof/Machine/Sequencer.lean ====
section
/-! DEFINITION. The engine's small steps S0 to S10 (R116). Only the whole operation is observable (R110); `step` takes it
whole, and these steps are what it is made of, with the control word each step gives the two sub-blocks. -/

namespace Sys2Proof.Machine

/-- Where an operation stands: the lines of R116, and `done` once the engine is idle again (R117). -/
inductive Phase where
  /-- S0: decode the CMD word. -/
  | s0
  /-- S1: decode `len`, `k`; CHECK_ARGS. -/
  | s1
  /-- S2: zero the first field octet. -/
  | s2
  /-- S3: zero the second field octet. -/
  | s3
  /-- S4: A.CLR, `IDX <- 0`. -/
  | s4
  /-- S5a: start a segment. -/
  | s5a
  /-- S5b: A.ABS of one octet, `IDX <- IDX + 1`. -/
  | s5b
  /-- S5c: A.RED at the segment's end. -/
  | s5c
  /-- S6: I.INV. -/
  | s6
  /-- S7: store `IQ`. -/
  | s7
  /-- S8: store `IR`. -/
  | s8
  /-- S9: write `STATUS`. -/
  | s9
  /-- S10: write `RESULT`. -/
  | s10
  /-- The operation has ended. -/
  | done
  deriving DecidableEq, Repr

/-- An operation on its way. -/
structure Sequencer where
  /-- The line of R116 that is next. -/
  phase : Phase
  /-- The word written to `CMD`. -/
  word : Word
  /-- The machine's state so far. -/
  st : State
  /-- The control words given to the accumulator and the inverter so far, newest first. -/
  given : List (AopWord × IenWord)
  deriving DecidableEq, Repr

/-- The operation that a write of `word` to `CMD` starts. -/
def startOperation (word : Word) (s : State) : Sequencer := ⟨.s0, word, s, []⟩

/-- ENCODE with `k > 0`: the condition of S2, S3, S6, S7 and S8. -/
def inserts (word : Word) (s : State) : Bool := word == encodeCommand && decide (0 < operandK s)

/-- The line after the accumulation loop. -/
def afterLoop (word : Word) (s : State) : Phase := if inserts word s then .s6 else .s9

/-- The line that the test `IDX < len` of S5 leads to. -/
def loopHead (word : Word) (s : State) : Phase :=
  if s.idx.toNat < (operandLen s).toNat then .s5a else afterLoop word s

/-- The AOP word a line gives the accumulator: A.HOLD where the line does not name it. -/
def aopGiven (p : Phase) (s : State) : Except Fault AopWord :=
  match p with
  | .s4 => .ok (aopWord 0b01 0)
  | .s5b =>
    match memRead s s.idx.toNat with
    | .ok b => .ok (aopWord 0b10 b)
    | .error f => .error f
  | .s5c => .ok (aopWord 0b11 0)
  | .s0 | .s1 | .s2 | .s3 | .s5a | .s6 | .s7 | .s8 | .s9 | .s10 | .done => .ok (aopWord 0b00 0)

/-- The IEN word a line gives the inverter: I.INV at S6, I.HOLD at every other line. -/
def ienGiven (p : Phase) : IenWord := if p = .s6 then 1 else 0

/-- A memory write of a line, and the line after it. -/
def writeThen (i : Nat) (v : Octet) (p : Phase) (s : State) : Except Fault (State × Phase) :=
  match memWrite s i v with
  | .ok s1 => .ok (s1, p)
  | .error f => .error f

/-- The engine's own part of a line, beside the sub-blocks, and the line after it. -/
def engineAct (p : Phase) (word : Word) (s : State) : Except Fault (State × Phase) :=
  match p with
  | .s0 =>
    match decodeCmd word with
    | .ok _ => .ok (s, .s1)
    | .error _ => .ok (raise .illegalCommand s, .done)
  | .s1 =>
    match checkArgs s.cap.val (operandLen s) (operandK s) with
    | some cause => .ok (raise (.invalidArgument cause) s, .done)
    | none => .ok (s, if inserts word s then .s2 else .s4)
  | .s2 => writeThen (fieldFirst (operandK s)) 0 .s3 s
  | .s3 => writeThen (fieldSecond (operandK s)) 0 .s4 s
  | .s4 => .ok (s.setIdx 0, loopHead word (s.setIdx 0))
  | .s5a => .ok (startSegment (operandLen s).toNat s, .s5b)
  | .s5b =>
    let s1 := advanceIdx s
    .ok (s1, if s1.idx.toNat < s1.segend.toNat then .s5b else .s5c)
  | .s5c => .ok (s, loopHead word s)
  | .s6 => .ok (s, .s7)
  | .s7 => writeThen (fieldFirst (operandK s)) s.iq .s8 s
  | .s8 => writeThen (fieldSecond (operandK s)) s.ir .s9 s
  | .s9 => .ok (s.setStatus statusOk, .s10)
  | .s10 => .ok (s.setResult (if word = encodeCommand then combinedValue s else verdictWord s), .done)
  | .done => .ok (s, .done)

/-- One small step: the line's control words are run by the two sub-blocks, then the engine does its own part.
An operation that has ended stays as it is. -/
def tick (q : Sequencer) : Host.Outcome Sequencer Fault Refusal :=
  if q.phase = .done then .next q
  else
    andThen (settle (aopGiven q.phase q.st)) fun aw =>
    andThen (runControlWord (.aop aw) q.st) fun s1 =>
    andThen (runControlWord (.ien (ienGiven q.phase)) s1) fun s2 =>
    andThen (settle (engineAct q.phase q.word s2)) fun r =>
    .next ⟨r.2, q.word, r.1, (aw, ienGiven q.phase) :: q.given⟩

/-- `n` small steps. -/
def ticks : Nat → Sequencer → Host.Outcome Sequencer Fault Refusal
  | 0, q => .next q
  | n + 1, q => andThen (tick q) (ticks n)

end Sys2Proof.Machine
end

