-- ==== Sys2Proof/Safety.lean ====
section
/-! DEFINITION. What counts as a safe run: the invariant, the legal arguments, completion, and the reference sums the claims use. -/

namespace Sys2Proof.Machine

/-- An outcome that is a next state: neither a fault nor a refusal. -/
def Completes {α : Type} (o : Host.Outcome α Fault Refusal) : Prop := ∃ t, o = .next t

/-- The buffer is in canonical form and lists only octets that exist. -/
abbrev State.wf (s : State) : Prop := Memory.wf s.buf ∧ ∀ c ∈ s.buf, c.1 < s.cap.val

/-- The seven values STATUS ever holds (R55). -/
abbrev statusLegal (w : Word) : Prop := w ∈ [0x00, 0x02, 0x11, 0x21, 0x31, 0x41, 0x51]

/-- A RESULT whose bits 31:16 are zero and whose two low octets are each 0 to 254 (R57, R59, R60). -/
abbrev resultLegal (w : Word) : Prop :=
  w.toNat < 65536 ∧ w.toNat / 256 ≤ 254 ∧ w.toNat % 256 ≤ 254

/-- The invariant of the machine: a canonical buffer, a STATUS the engine produces, and, where STATUS says OK, a
RESULT the engine produces. -/
abbrev State.Inv (s : State) : Prop :=
  s.wf ∧ statusLegal s.status ∧ (statusCode s.status = 0 → resultLegal s.result)

/-- The legal domain of the arguments: `0 <= len <= CAP`, and `k = 0` or `1 <= k <= len - 1` (R141). -/
abbrev LegalArgs (cap : Nat) (len k : Int) : Prop :=
  0 ≤ len ∧ len ≤ cap ∧ (k = 0 ∨ 1 ≤ k ∧ k ≤ len - 1)

/-- The octet at an index of a state's buffer, as a number. -/
def octetAt (s : State) (i : Nat) : Nat := (Memory.read s.buf i).toNat

/-- The plain sum of the first `n` octets, in unbounded integers (R81). -/
def plainSum (octet : Nat → Nat) (n : Nat) : Nat := ∑ i ∈ Finset.range n, octet i

/-- The sum of the first `n` octets, the octet at `i` with weight `n - i`, in unbounded integers (R81). -/
def weightedSum (octet : Nat → Nat) (n : Nat) : Nat := ∑ i ∈ Finset.range n, (n - i) * octet i

/-- The octets of a buffer with the field of `k` forced to zero; `k = 0` names no field (R33, R112). -/
def zeroedField (k : Int) (octet : Nat → Nat) (i : Nat) : Nat :=
  if 0 < k ∧ (i = fieldFirst k ∨ i = fieldSecond k) then 0 else octet i

/-- Two states whose buffers have the same octets below `n`. -/
def AgreeBelow (n : Nat) (s t : State) : Prop := ∀ i, i < n → octetAt s i = octetAt t i

/-- Instances attached to the same memory see the same octets and the same capacity. -/
def Coherent (engines : List Attached) : Prop :=
  ∀ e ∈ engines, ∀ f ∈ engines, e.memory = f.memory → e.state.buf = f.state.buf ∧ e.state.cap = f.state.cap

end Sys2Proof.Machine
end

