-- ==== Sys2Proof/Certificates/Slice0/Obligations.lean ====
section
/-! DEFINITION. The statements for the provers. Each docstring names the rule of spec/ it comes from. -/

open Sys2Proof Sys2Proof.Machine

/-! ### Encoding -/

/-- Decoding an encoded well-formed instruction gives it back, and encoding a decoded word gives the word back, but for
an AOP word's field `b`, which three micro-operations ignore and the encoder writes as 0 (30_encoding.md sections 1, 10). -/
def Obligations.DecodeEncodeRoundTrip : Prop :=
  (∀ i : Instr, i.wellFormed = true → decode (encode i) = .ok i) ∧
  (∀ (cw : ControlWord) (i : Instr), decode cw = .ok i →
    encode i = cw ∨
    ∃ w, cw = .aop w ∧ encode i = .aop (w &&& 0x300) ∧ (i = .aHold ∨ i = .aClr ∨ i = .aRed))

/-- Which words are which instruction, by the match and mask of each row (R51, R61, R62). -/
def Obligations.DecodeMatchesOpcodeTable : Prop :=
  (∀ (w : Word) (i : Instr), decode (.cmd w) = .ok i ↔
    (i = .encode ∧ w = 0x00000001) ∨ (i = .verify ∧ w = 0x00000002)) ∧
  (∀ (w : AopWord) (i : Instr), decode (.aop w) = .ok i ↔
    (i = .aHold ∧ w &&& 0x300 = 0x000) ∨ (i = .aClr ∧ w &&& 0x300 = 0x100) ∨
    (∃ b : Octet, i = .aAbs b ∧ w &&& 0x300 = 0x200 ∧ b.toNat = w.toNat % 256) ∨
    (i = .aRed ∧ w &&& 0x300 = 0x300)) ∧
  (∀ (w : IenWord) (i : Instr), decode (.ien w) = .ok i ↔ (i = .iHold ∧ w = 0) ∨ (i = .iInv ∧ w = 1))

/-- Words written out in the spec decode to the instruction it names (R51, R61, R62; 95_test_vectors.md 2.1). -/
def Obligations.SpecWordsDecode : Prop :=
  decode (.cmd 0x00000001) = .ok .encode ∧ decode (.cmd 0x00000002) = .ok .verify ∧
  decode (.aop 0x000) = .ok .aHold ∧ decode (.aop 0x0A7) = .ok .aHold ∧ decode (.aop 0x100) = .ok .aClr ∧
  decode (.aop 0x2A8) = .ok (.aAbs 0xA8) ∧ decode (.aop 0x2FF) = .ok (.aAbs 0xFF) ∧
  decode (.aop 0x300) = .ok .aRed ∧ decode (.ien 0) = .ok .iHold ∧ decode (.ien 1) = .ok .iInv

/-! ### The step and the host's accesses -/

/-- A step whose next input brings a control word that decodes to `i` takes the input and is `exec i`; the table's
word placed by `withFetchWord` is run by the very next step. -/
def Obligations.StepRunsDecodedInstruction : Prop :=
  (∀ (s : State) (cw : ControlWord) (rest : List Input) (i : Instr),
    s.pending = inputOfControlWord cw :: rest → decode cw = .ok i → i.wellFormed = true →
    step s = exec i { s with pending := rest }) ∧
  (∀ (s : State) (nbits w : Nat) (i : Instr), decodeTableWord nbits w = some i →
    step (s.withFetchWord nbits w) = exec i s)

/-- With no input pending the engine is idle and nothing changes (R149; that a step then stays is log 12). -/
def Obligations.IdleStepChangesNothing : Prop :=
  ∀ s : State, s.pending = [] → step s = .next s

/-- Host writes of the registers: `LEN` and `K` take every word and it reads back unchanged, and nothing else changes
(R12, R13); writes of `STATUS` and `RESULT` are ignored (R15, R16); a write of `CMD` runs the word (R14). -/
def Obligations.HostRegisterWrites : Prop :=
  ∀ (s : State) (rest : List Input) (w : Word),
    (s.pending = .writeReg .len w :: rest → step s = .next { s with pending := rest, len := w }) ∧
    (s.pending = .writeReg .k w :: rest → step s = .next { s with pending := rest, k := w }) ∧
    (s.pending = .writeReg .status w :: rest → step s = .next { s with pending := rest }) ∧
    (s.pending = .writeReg .result w :: rest → step s = .next { s with pending := rest }) ∧
    (s.pending = .writeReg .cmd w :: rest → step s = runControlWord (.cmd w) { s with pending := rest })

/-- Host reads of the registers deliver the register's value, and 0 for `CMD`, and change nothing else (R11, R14). -/
def Obligations.HostRegisterReads : Prop :=
  ∀ (s : State) (rest : List Input) (r : HostReg), s.pending = .readReg r :: rest →
    step s = .next { s with
      pending := rest
      reads := (match r with
        | .len => s.len
        | .k => s.k
        | .cmd => 0
        | .status => s.status
        | .result => s.result) :: s.reads }

/-- MemRead and MemWrite (R34): for `0 <= i < CAP` a write makes `BUF[i] = v`, which a read of `i` then returns, and
changes no other octet and no register; and a read returns the octet that is there. -/
def Obligations.BufferReadAfterWrite : Prop :=
  ∀ (s : State) (i : Nat) (v : Octet), Memory.wf s.buf → i < s.cap.val →
    memRead s i = .ok (Memory.read s.buf i) ∧
    ∃ t, memWrite s i v = .ok t ∧ t = { s with buf := t.buf } ∧ Memory.wf t.buf ∧
      memRead t i = .ok v ∧ ∀ j, j ≠ i → memRead t j = memRead s j

/-- What the host reads back, in the second of two steps, of an octet it wrote in the first (R34, R36): the octet written
where the two indices agree, else the octet that was there. Of the buffer this says what the read at `j` delivers, for
any `j`; the registers and the model's own fields are given whole. Model's choice: inputs wait in `pending` (log 8),
and the delivered octet is put in `reads`, zero-extended to 32 bits (log 13). -/
def Obligations.HostBufferAccess : Prop :=
  ∀ (s : State) (rest : List Input) (i j : Nat) (v : Octet), s.wf → i < s.cap.val → j < s.cap.val →
    s.pending = .writeBuf i v :: .readBuf j :: rest →
    ∃ t u, step s = .next t ∧ step t = .next u ∧
      t = { s with pending := .readBuf j :: rest, buf := t.buf } ∧
      u = { t with
        pending := rest
        reads := (if j = i then v else Memory.read s.buf j).setWidth 32 :: s.reads }

/-- A written operation stands for three register writes (R63, R64): three steps run its command on exactly the
integers written, where the 32-bit registers can express them. -/
def Obligations.HostOperationRunsItsCommand : Prop :=
  ∀ (s : State) (rest : List Input) (len k : Int), (HostOp.encode len k).wellFormed = true →
    (s.pending = expandHostOp (.encode len k) ++ rest →
      ∃ a b, step s = .next a ∧ step a = .next b ∧ operandLen b = len ∧ operandK b = k ∧
        step b = exec .encode { s with len := b.len, k := b.k, pending := rest }) ∧
    (s.pending = expandHostOp (.verify len k) ++ rest →
      ∃ a b, step s = .next a ∧ step a = .next b ∧ operandLen b = len ∧ operandK b = k ∧
        step b = exec .verify { s with len := b.len, k := b.k, pending := rest }) ∧
    expandHostOp (.sum len) = expandHostOp (.encode len 0)

/-! ### Reset -/

/-- The host-visible registers, after reset and after the reset event: all five read 0, `CMD` among them; the event
leaves the buffer untouched (R26). -/
def Obligations.ResetLeavesHostRegistersZero : Prop :=
  (∀ r, readHostReg State.reset r = 0) ∧
  (∀ (s : State) (rest : List Input), s.pending = .reset :: rest →
    ∃ t, step s = .next t ∧ (∀ r, readHostReg t r = 0) ∧ t.buf = s.buf ∧ t.cap = s.cap)

/-- The first command after reset, `CMD = 1`, is `SUM 0`: legal, with `RESULT = 0` (R172). -/
def Obligations.FirstCommandAfterReset : Prop :=
  ∃ t, step (State.reset.withFetchWord 32 0x00000001) = .next t ∧ t.status = 0 ∧ t.result = 0 ∧
    t.buf = State.reset.buf

/-! ### Exceptions -/

/-- A word written to `CMD` that is neither command (R52, R142): IllegalCommand, whatever `LEN` and `K` hold. STATUS
is `0x00000002`, RESULT some word (log 4), and nothing else of the machine changes. -/
def Obligations.IllegalCommandTakesException : Prop :=
  ∀ (s : State) (w : Word), w ≠ 0x00000001 → w ≠ 0x00000002 →
    ∃ r n, runControlWord (.cmd w) s = .next { s with status := 0x00000002, result := r, freeCount := n }

/-- CHECK_ARGS on the decoded operands (R141): the first violation in the listed order raises InvalidArgument with its
cause in STATUS; STATUS and RESULT (some word, log 4) change and nothing else does (R145). Both operations run it. -/
def Obligations.InvalidArgumentTakesException : Prop :=
  ∀ (s : State) (i : Instr) (w : Word), i = .encode ∨ i = .verify →
    w = (if s.len.toInt < 0 then 0x00000011
      else if (s.cap.val : Int) < s.len.toInt then 0x00000021
      else if s.k.toInt < 0 then 0x00000031
      else if s.len.toInt < s.k.toInt then 0x00000041
      else if 0 < s.k.toInt ∧ s.k.toInt = s.len.toInt then 0x00000051
      else 0x00000000) →
    (w ≠ 0 → ∃ r n, exec i s = .next { s with status := w, result := r, freeCount := n }) ∧
    (w = 0 ↔ LegalArgs s.cap.val s.len.toInt s.k.toInt)

/-- On legal arguments neither operation raises: STATUS is 0 at the end, whatever a verification finds (R143). -/
def Obligations.LegalArgumentsRaiseNothing : Prop :=
  ∀ (s : State) (i : Instr), i = .encode ∨ i = .verify → LegalArgs s.cap.val s.len.toInt s.k.toInt →
    ∃ t, exec i s = .next t ∧ t.status = 0 ∧ t.freeCount = s.freeCount

/-- Every instruction answers a next state from every state: the arithmetic raises nothing, and after the argument
check every access of the engine is inside the buffer (R41, R140). -/
def Obligations.EveryInstructionCompletes : Prop :=
  ∀ (i : Instr) (s : State), Completes (exec i s)

/-- A step completes exactly when its input is not a host's access to an octet that does not exist, and on such an
access it faults. That the access is a fault is the model's choice (log 11); R34 asks `0 <= i < CAP` of it. -/
def Obligations.StepStopsOnlyOutsideBuffer : Prop :=
  ∀ s : State,
    let outside := ∃ i rest, s.cap.val ≤ i ∧
      ((∃ b, s.pending = .writeBuf i b :: rest) ∨ s.pending = .readBuf i :: rest)
    (outside → step s = .fault .outsideBuffer) ∧ (¬ outside → Completes (step s))

/-! ### modular_dual_accumulator -/

/-- A.HOLD and I.HOLD complete and change nothing. -/
def Obligations.HoldsChangeNothing : Prop :=
  ∀ s : State, exec .aHold s = .next s ∧ exec .iHold s = .next s

/-- A.CLR clears both sums, whatever they held, and changes nothing else. -/
def Obligations.ClearZeroesBothSums : Prop :=
  ∀ s : State, exec .aClr s = .next { s with c0 := 0, c1 := 0 }

/-- A.ABS: `C0 <- C0 + b`, then `C1 <- C1 +` the new `C0`, unreduced; nothing else changes (R73). The premises say that
both exact sums fit the 32-bit registers, as R80 says they do between two reductions. -/
def Obligations.AbsorbAddsOctetThenSum : Prop :=
  ∀ (s : State) (b : Octet), s.c0.toNat + b.toNat < 4294967296 →
    s.c1.toNat + (s.c0.toNat + b.toNat) < 4294967296 →
    exec (.aAbs b) s = .next { s with
      c0 := BitVec.ofNat 32 (s.c0.toNat + b.toNat)
      c1 := BitVec.ofNat 32 (s.c1.toNat + (s.c0.toNat + b.toNat)) }

/-- A.ABS from every state, the ones no operation reaches too: it completes; where a sum leaves its register the spec
states no value (the model's choice, log 5), `C1` is still computed from the value `C0` got, and the frame holds. -/
def Obligations.AbsorbCompletesEverywhere : Prop :=
  ∀ (s : State) (b : Octet), ∃ c0 c1 n,
    exec (.aAbs b) s = .next { s with c0 := c0, c1 := c1, freeCount := n } ∧
    (s.c0.toNat + b.toNat < 4294967296 → c0.toNat = s.c0.toNat + b.toNat) ∧
    (s.c1.toNat + c0.toNat < 4294967296 → c1.toNat = s.c1.toNat + c0.toNat)

/-- A.RED takes both sums modulo 255 and changes nothing else; twice is once (R74). -/
def Obligations.ReduceTakesModulo255 : Prop :=
  ∀ s : State,
    exec .aRed s = .next { s with
      c0 := BitVec.ofNat 32 (s.c0.toNat % 255)
      c1 := BitVec.ofNat 32 (s.c1.toNat % 255) } ∧
    andThen (exec .aRed s) (exec .aRed) = exec .aRed s

/-- The register bounds inside a segment (R80), and that a full segment of `0xFF` from (254, 254) reaches both. -/
def Obligations.SegmentSumsStayInRegisters : Prop :=
  ∀ (s : State) (j : Nat), s.c0.toNat ≤ 254 → s.c1.toNat ≤ 254 → j ≤ 4102 → s.idx.toNat + j ≤ s.cap.val →
    ∃ t, absorbOctets j s = .ok t ∧ t = { s with c0 := t.c0, c1 := t.c1, idx := t.idx } ∧
      t.idx.toNat = s.idx.toNat + j ∧
      t.c0.toNat ≤ 254 + 255 * j ∧ t.c1.toNat ≤ 254 + 254 * j + 255 * j * (j + 1) / 2 ∧
      (j = 4102 → s.c0 = 254 → s.c1 = 254 → (∀ i, i < j → octetAt s (s.idx.toNat + i) = 255) →
        t.c0.toNat = 1046264 ∧ t.c1.toNat = 2146931677)

/-- ACCUMULATE in closed form (R81), and its frame: it leaves reduced sums, `IDX` at `len`, `SEGEND` at `len` unless
`len = 0`, and changes nothing else. -/
def Obligations.AccumulateClosedForm : Prop :=
  ∀ (s : State) (len : Nat), len ≤ s.cap.val →
    ∃ t, accumulate len s = .ok t ∧
      t = { s with c0 := t.c0, c1 := t.c1, idx := t.idx, segend := t.segend } ∧
      t.c0.toNat = plainSum (octetAt s) len % 255 ∧ t.c1.toNat = weightedSum (octetAt s) len % 255 ∧
      t.idx.toNat = len ∧ t.segend = if len = 0 then s.segend else BitVec.ofNat 32 len

/-- Where the reductions fall makes no difference (R81, R123): ACCUMULATE gives what a fold that reduces after every
single octet gives. -/
def Obligations.SegmentsAreInvisible : Prop :=
  ∀ (s : State) (len : Nat), len ≤ s.cap.val →
    ∃ t, accumulate len s = .ok t ∧
      (t.c0.toNat, t.c1.toNat) = (List.range len).foldl
        (fun c i => ((c.1 + octetAt s i) % 255, (c.2 + (c.1 + octetAt s i) % 255) % 255)) (0, 0)

/-! ### checksum_inverter -/

/-- I.INV on reduced sums (R92, R93, R94): the two formulas with their thresholds, `iq` first, both between 1 and 255;
nothing else changes. -/
def Obligations.InvertLatchesBothFormulas : Prop :=
  ∀ (s : State) (x iq ir : Int), s.c0.toNat ≤ 254 → s.c1.toNat ≤ 254 →
    x = (s.len.toInt - s.k.toInt) * s.c0.toNat - s.c1.toNat →
    iq = (if x % 255 ≤ 0 then x % 255 + 255 else x % 255) →
    ir = (if 510 - (s.c0.toNat : Int) - iq > 255 then 510 - (s.c0.toNat : Int) - iq - 255
      else 510 - (s.c0.toNat : Int) - iq) →
    1 ≤ iq ∧ iq ≤ 255 ∧ 1 ≤ ir ∧ ir ≤ 255 ∧
    exec .iInv s = .next { s with iq := BitVec.ofInt 8 iq, ir := BitVec.ofInt 8 ir }

/-- I.INV from every state: it completes and changes `IQ` and `IR` only; `IQ` is always the formula's value, and `IR`
is where its value fits 8 bits (elsewhere the spec states no value: the model's choice, log 6). -/
def Obligations.InvertCompletesEverywhere : Prop :=
  ∀ s : State, ∃ a b n, exec .iInv s = .next { s with iq := a, ir := b, freeCount := n } ∧
    (a.toNat : Int) = iqOf s.len.toInt s.k.toInt s.c0.toNat s.c1.toNat ∧
    (0 ≤ irOf s.c0.toNat a.toNat → irOf s.c0.toNat a.toNat ≤ 255 → (b.toNat : Int) = irOf s.c0.toNat a.toNat)

/-- `iq` is the same under the truncating remainder (R96), and when `len - k` is reduced first (R98). -/
def Obligations.IqIndependentOfModConvention : Prop :=
  ∀ len k c0 c1 : Int,
    (iqOf len k c0 c1 =
      if Int.tmod ((len - k) * c0 - c1) 255 ≤ 0 then Int.tmod ((len - k) * c0 - c1) 255 + 255
      else Int.tmod ((len - k) * c0 - c1) 255) ∧
    iqOf len k c0 c1 = iqOf ((len - k) % 255) 0 c0 c1

/-- Any two octets that, put in a zeroed field, make both sums zero are congruent modulo 255 to the engine's pair
(41_checksum_inverter.md after R97). -/
def Obligations.CheckOctetsUniqueModulo255 : Prop :=
  ∀ (octet : Nat → Nat) (len p a b : Nat), p + 1 < len → octet p = 0 → octet (p + 1) = 0 →
    let c0 := plainSum octet len % 255
    let c1 := weightedSum octet len % 255
    let filled := fun i => if i = p then a else if i = p + 1 then b else octet i
    plainSum filled len % 255 = 0 → weightedSum filled len % 255 = 0 →
    (a : Int) % 255 = iqOf len (p + 1) c0 c1 % 255 ∧
    (b : Int) % 255 = irOf c0 (iqOf len (p + 1) c0 c1) % 255

/-! ### ENCODE and VERIFY -/

/-- ENCODE with `k > 0` on legal arguments (R111, R112). The field is zeroed to give `z`, ACCUMULATE runs over `z` to give
`u`, the combined value is taken from `u`, I.INV computes the octets from `u`, and they are stored at `k - 1` and `k`.
The final state is given whole: every register, and every octet of memory. -/
def Obligations.EncodeZeroesAccumulatesInserts : Prop :=
  ∀ (s : State) (len k : Int), s.wf → len = s.len.toInt → k = s.k.toInt → LegalArgs s.cap.val len k → 0 < k →
    ∃ z u t, z = { s with buf := z.buf } ∧ z.wf ∧
      (∀ a, Memory.read z.buf a = if a = fieldFirst k ∨ a = fieldSecond k then 0 else Memory.read s.buf a) ∧
      accumulate len.toNat z = .ok u ∧ exec .encode s = .next t ∧
      t = { u with iq := t.iq, ir := t.ir, buf := t.buf, status := 0, result := t.result } ∧
      (t.iq.toNat : Int) = iqOf len k u.c0.toNat u.c1.toNat ∧ (t.ir.toNat : Int) = irOf u.c0.toNat t.iq.toNat ∧
      t.result.toNat = u.c1.toNat * 256 + u.c0.toNat ∧ t.wf ∧
      ∀ a, Memory.read t.buf a =
        if a = fieldFirst k then t.iq else if a = fieldSecond k then t.ir else Memory.read s.buf a

/-- SUM, that is ENCODE with `k = 0` (R113): the sums of the buffer as it stands; no octet is written, `IQ` and `IR`
keep their values. -/
def Obligations.SumAccumulatesAndWritesNoOctet : Prop :=
  ∀ s : State, s.k = 0 → 0 ≤ s.len.toInt → s.len.toInt ≤ s.cap.val →
    ∃ u, accumulate s.len.toInt.toNat s = .ok u ∧ u.buf = s.buf ∧ u.iq = s.iq ∧ u.ir = s.ir ∧
      exec .encode s = .next { u with status := 0, result := BitVec.ofNat 32 (u.c1.toNat * 256 + u.c0.toNat) }

/-- VERIFY on legal arguments (R59, R143; the body is R114): the sums of the buffer exactly as received; RESULT is 1 when
both are zero and 0 otherwise, STATUS is 0 either way; no octet is written, `IQ` and `IR` keep their values. -/
def Obligations.VerifyAccumulatesAndReportsValid : Prop :=
  ∀ s : State, LegalArgs s.cap.val s.len.toInt s.k.toInt →
    ∃ u, accumulate s.len.toInt.toNat s = .ok u ∧ u.buf = s.buf ∧ u.iq = s.iq ∧ u.ir = s.ir ∧
      exec .verify s = .next { u with status := 0, result := if u.c0 = 0 ∧ u.c1 = 0 then 1 else 0 }

/-- ENCODE against the reference (R123): RESULT is the combined value of the unsegmented sums, in unbounded integers,
of the octets with the field zero, reduced once at the end. -/
def Obligations.EncodeResultMatchesReference : Prop :=
  ∀ s : State, s.wf → LegalArgs s.cap.val s.len.toInt s.k.toInt →
    ∃ t, exec .encode s = .next t ∧
      t.result.toNat =
        weightedSum (zeroedField s.k.toInt (octetAt s)) s.len.toInt.toNat % 255 * 256 +
        plainSum (zeroedField s.k.toInt (octetAt s)) s.len.toInt.toNat % 255

/-- VERIFY against the reference (R123): RESULT is 1 exactly when both unsegmented sums are multiples of 255. -/
def Obligations.VerifyResultMatchesReference : Prop :=
  ∀ s : State, LegalArgs s.cap.val s.len.toInt s.k.toInt →
    ∃ t, exec .verify s = .next t ∧
      (t.result = 1 ↔ plainSum (octetAt s) s.len.toInt.toNat % 255 = 0 ∧
        weightedSum (octetAt s) s.len.toInt.toNat % 255 = 0) ∧ (t.result = 1 ∨ t.result = 0)

/-- What the field held before an ENCODE with `k > 0` makes no difference (R112): two states that differ only there
answer the same state, all of it. -/
def Obligations.FieldContentIsIrrelevant : Prop :=
  ∀ s u : State, s.wf → u.wf → u = { s with buf := u.buf } → LegalArgs s.cap.val s.len.toInt s.k.toInt →
    0 < s.k.toInt →
    (∀ a, a ≠ fieldFirst s.k.toInt → a ≠ fieldSecond s.k.toInt → Memory.read u.buf a = Memory.read s.buf a) →
    exec .encode u = exec .encode s

/-- The octets ENCODE stores with `k > 0` are both between 1 and 255, never `0x00`, and a residue of 0 is stored as
`0xFF` (R95, R99). -/
def Obligations.StoredOctetsAreNeverZero : Prop :=
  ∀ s : State, s.wf → LegalArgs s.cap.val s.len.toInt s.k.toInt → 0 < s.k.toInt →
    ∃ t, exec .encode s = .next t ∧
      1 ≤ octetAt t (fieldFirst s.k.toInt) ∧ 1 ≤ octetAt t (fieldSecond s.k.toInt) ∧
      (((s.len.toInt - s.k.toInt) * t.c0.toNat - t.c1.toNat) % 255 = 0 → octetAt t (fieldFirst s.k.toInt) = 255) ∧
      ((t.c0.toNat + octetAt t (fieldFirst s.k.toInt)) % 255 = 0 → octetAt t (fieldSecond s.k.toInt) = 255)

/-- The round trip (R118): after an ENCODE with `k > 0`, VERIFY of the same `len` gives 1 for every legal `k'`, and SUM
gives 0. -/
def Obligations.EncodedBufferVerifies : Prop :=
  ∀ s : State, s.wf → LegalArgs s.cap.val s.len.toInt s.k.toInt → 0 < s.k.toInt →
    ∃ t, exec .encode s = .next t ∧
      (∀ k' : Word, LegalArgs s.cap.val s.len.toInt k'.toInt →
        ∃ v, exec .verify { t with k := k' } = .next v ∧ v.status = 0 ∧ v.result = 1) ∧
      ∃ v, exec .encode { t with k := 0 } = .next v ∧ v.status = 0 ∧ v.result = 0

/-- VERIFY repeated on the same buffer gives the same result and never writes the buffer (R119): the second run leaves
the very state the first one left. -/
def Obligations.VerifyIsRepeatable : Prop :=
  ∀ s : State, LegalArgs s.cap.val s.len.toInt s.k.toInt →
    ∃ t, exec .verify s = .next t ∧ t.buf = s.buf ∧ exec .verify t = .next t

/-- ENCODE is idempotent (R121): a second run leaves the very state the first one left. -/
def Obligations.EncodeIsIdempotent : Prop :=
  ∀ s : State, s.wf → LegalArgs s.cap.val s.len.toInt s.k.toInt →
    ∃ t, exec .encode s = .next t ∧ exec .encode t = .next t

/-- Exactly which corruption of a valid buffer goes undetected (R122). -/
def Obligations.UndetectedCorruptionExactly : Prop :=
  ∀ s u : State, LegalArgs s.cap.val s.len.toInt s.k.toInt → u = { s with buf := u.buf } →
    ∃ t v, exec .verify s = .next t ∧ exec .verify u = .next v ∧
      (t.result = 1 → (v.result = 1 ↔
        (∑ i ∈ Finset.range s.len.toInt.toNat, ((octetAt u i : Int) - octetAt s i)) % 255 = 0 ∧
        (∑ i ∈ Finset.range s.len.toInt.toNat,
          ((s.len.toInt.toNat : Int) - i) * ((octetAt u i : Int) - octetAt s i)) % 255 = 0))

/-- Every single-bit flip below `len` of a valid buffer is detected (R122 a). -/
def Obligations.SingleBitFlipIsDetected : Prop :=
  ∀ (s u : State) (i j : Nat), LegalArgs s.cap.val s.len.toInt s.k.toInt → u = { s with buf := u.buf } →
    i < s.len.toInt.toNat → j < 8 → Memory.read u.buf i = Memory.read s.buf i ^^^ (1 <<< j) →
    (∀ a, a ≠ i → Memory.read u.buf a = Memory.read s.buf a) →
    ∃ t v, exec .verify s = .next t ∧ exec .verify u = .next v ∧ (t.result = 1 → v.result = 0)

/-- Other single changes of a valid buffer (R122 b, c, d): one octet changed is undetected exactly when it went between
`0x00` and `0xFF`, and a swap of two adjacent octets exactly when they are equal modulo 255. -/
def Obligations.OctetChangeAndSwapDetection : Prop :=
  ∀ (s u : State) (i : Nat), LegalArgs s.cap.val s.len.toInt s.k.toInt → u = { s with buf := u.buf } →
    ∃ t v, exec .verify s = .next t ∧ exec .verify u = .next v ∧
      (t.result = 1 → i < s.len.toInt.toNat → (∀ a, a ≠ i → Memory.read u.buf a = Memory.read s.buf a) →
        octetAt u i ≠ octetAt s i →
        (v.result = 1 ↔ (octetAt s i = 0 ∧ octetAt u i = 255) ∨ (octetAt s i = 255 ∧ octetAt u i = 0))) ∧
      (t.result = 1 → i + 1 < s.len.toInt.toNat →
        (∀ a, a ≠ i → a ≠ i + 1 → Memory.read u.buf a = Memory.read s.buf a) →
        octetAt u i = octetAt s (i + 1) → octetAt u (i + 1) = octetAt s i →
        (v.result = 1 ↔ octetAt s i % 255 = octetAt s (i + 1) % 255))

/-- A valid verdict proves little (R178, R114): any octets that are all `0x00` or `0xFF`, the empty buffer's among them,
verify. -/
def Obligations.BlindSpotsVerify : Prop :=
  ∀ s : State, LegalArgs s.cap.val s.len.toInt s.k.toInt →
    (∀ i, i < s.len.toInt.toNat → octetAt s i = 0 ∨ octetAt s i = 255) →
    ∃ t, exec .verify s = .next t ∧ t.status = 0 ∧ t.result = 1

/-- Octets at and above `len` are neither read nor changed (R39, R41): they stay, and what they hold makes no difference
to STATUS, RESULT or any octet below `len`. -/
def Obligations.OctetsBeyondLenPlayNoPart : Prop :=
  ∀ (s u : State) (i : Instr), i = .encode ∨ i = .verify → s.wf → u.wf →
    LegalArgs s.cap.val s.len.toInt s.k.toInt → u = { s with buf := u.buf } → AgreeBelow s.len.toInt.toNat s u →
    ∃ t v, exec i s = .next t ∧ exec i u = .next v ∧ v = { t with buf := v.buf } ∧
      AgreeBelow s.len.toInt.toNat t v ∧
      (∀ a, s.len.toInt.toNat ≤ a → Memory.read t.buf a = Memory.read s.buf a) ∧
      (∀ a, s.len.toInt.toNat ≤ a → Memory.read v.buf a = Memory.read u.buf a)

/-- The outcome of an operation depends on the command, `LEN`, `K`, `CAP` and the buffer only (R21): not on the earlier
STATUS or RESULT, nor on what the internal registers held. RESULT after an exception is free (log 4). -/
def Obligations.OutcomeDependsOnOperandsOnly : Prop :=
  ∀ (s u : State) (i : Instr), i = .encode ∨ i = .verify →
    u.len = s.len → u.k = s.k → u.cap = s.cap → u.buf = s.buf →
    ∃ t v, exec i s = .next t ∧ exec i u = .next v ∧ v.status = t.status ∧ v.buf = t.buf ∧
      (t.status = 0 → v.result = t.result)

/-- The engine never writes `LEN` or `K`, and no instruction changes `CAP`, an input or a value read (R22, R24). -/
def Obligations.EngineNeverWritesOperands : Prop :=
  ∀ (i : Instr) (s t : State), exec i s = .next t →
    t.len = s.len ∧ t.k = s.k ∧ t.cap = s.cap ∧ t.pending = s.pending ∧ t.reads = s.reads

/-- The micro-operations touch only their own block (R70, R90): no buffer octet, no host-visible register, no
sequencing register, and never the other block's registers. -/
def Obligations.MicroOperationsStayInTheirBlock : Prop :=
  (∀ (i : Instr) (s : State), i = .aHold ∨ i = .aClr ∨ i = .aRed ∨ (∃ b, i = .aAbs b) →
    ∃ a b n, exec i s = .next { s with c0 := a, c1 := b, freeCount := n }) ∧
  (∀ (i : Instr) (s : State), i = .iHold ∨ i = .iInv →
    ∃ a b n, exec i s = .next { s with iq := a, ir := b, freeCount := n })

/-! ### The invariant -/

/-- The state after reset meets the invariant. -/
def Obligations.ResetMeetsInvariant : Prop := State.reset.Inv

/-- Every step from a state that meets the invariant leaves one that meets it: the buffer stays canonical and inside
`CAP`, STATUS holds one of the seven values of R55, and where it says OK, RESULT is a combined value or a verdict. -/
def Obligations.StepKeepsInvariant : Prop :=
  ∀ s t : State, s.Inv → step s = .next t → t.Inv

/-! ### The small steps and several instances -/

/-- The steps S0 to S10 of R116 and the whole operation agree: the small steps of every command word end, in exactly
the state that the one atomic step of the command answers. Where the operation raises, that both draw the same word for
`RESULT` is the model's choice (log 15). -/
def Obligations.SmallStepsEndInTheAtomicOutcome : Prop :=
  ∀ (s : State) (w : Word), ∃ n t given,
    ticks n (startOperation w s) = .next ⟨.done, w, t, given⟩ ∧ runControlWord (.cmd w) s = .next t

/-- The micro-operations of an operation with legal arguments (R116): one A.CLR, `len` A.ABS, `ceil(len / 4102)` A.RED,
and for ENCODE with `k > 0` one I.INV; with the lines that give none of these, the four stores among them, exactly this
many lines in all. -/
def Obligations.MicroOperationCounts : Prop :=
  ∀ (s : State) (w : Word), w = 0x00000001 ∨ w = 0x00000002 → LegalArgs s.cap.val s.len.toInt s.k.toInt →
    ∃ n q, ticks n (startOperation w s) = .next q ∧ q.phase = .done ∧
      q.given.countP (fun g => aopField g.1 == 0b01) = 1 ∧
      q.given.countP (fun g => aopField g.1 == 0b10) = s.len.toInt.toNat ∧
      q.given.countP (fun g => aopField g.1 == 0b11) = (s.len.toInt.toNat + 4101) / 4102 ∧
      q.given.countP (fun g => g.2 == 1) = (if w = 0x00000001 ∧ 0 < s.k.toInt then 1 else 0) ∧
      q.given.length = 5 + s.len.toInt.toNat + 2 * ((s.len.toInt.toNat + 4101) / 4102) +
        (if w = 0x00000001 ∧ 0 < s.k.toInt then 5 else 0)

/-- A step of one instance (R25): every other keeps all its registers, and one attached to another memory keeps its
buffer too. -/
def Obligations.InstancesShareNoRegister : Prop :=
  ∀ (engines after : List Attached) (n m : Nat) (e f : Attached), n ≠ m →
    engines[n]? = some e → engines[m]? = some f → stepInstance n engines = .next after →
    ∃ g, after[m]? = some g ∧ g = { f with state := { f.state with buf := g.state.buf } } ∧
      (f.memory ≠ e.memory → g = f)

/-- What one instance leaves in a memory is what every instance attached to it sees (R25, R44): coherence is kept. -/
def Obligations.StepKeepsCoherence : Prop :=
  ∀ (engines after : List Attached) (n : Nat), Coherent engines → stepInstance n engines = .next after → Coherent after

/-- Two instances need no synchronisation on independent buffers, nor on a shared one where neither step writes it, as
two VERIFY do not (R152): their steps give the same states in either order. Where a step draws free values, that the
orders give the same words is the model's choice: each instance draws by its own counter (log 15). -/
def Obligations.InstancesAreIndependent : Prop :=
  ∀ (engines a b : List Attached) (n m : Nat) (e f : Attached), n ≠ m → Coherent engines →
    engines[n]? = some e → engines[m]? = some f →
    stepInstance n engines = .next a → stepInstance m engines = .next b →
    e.memory ≠ f.memory ∨
      (∃ t u, step e.state = .next t ∧ t.buf = e.state.buf ∧ step f.state = .next u ∧ u.buf = f.state.buf) →
    ∃ c, stepInstance m a = .next c ∧ stepInstance n b = .next c
end

