-- ==== Sys2Proof/Laws/Memory.lean ====
section
/-! SUPPORT. The laws of the buffer: read after write, the canonical form, and equality of canonical buffers. -/

namespace Sys2Proof.Machine

@[simp] theorem Memory.read_nil (a : Nat) : Memory.read [] a = Config.powerUpOctet := rfl

theorem Memory.read_cons (c : Host.Cell) (m : List Host.Cell) (a : Nat) :
    Memory.read (c :: m) a = if c.1 = a then c.2 else Memory.read m a := rfl

/-- An address that no entry lists reads as the power-up octet. -/
theorem Memory.read_of_not_listed {m : List Host.Cell} {a : Nat} (h : ∀ c ∈ m, c.1 ≠ a) :
    Memory.read m a = Config.powerUpOctet := by
  induction m with
  | nil => rfl
  | cons c m ih =>
    rw [Memory.read_cons, if_neg (h c (by simp))]
    exact ih fun d hd => h d (by simp [hd])

theorem Memory.wf_nil : Memory.wf [] := by simp [Memory.wf]

theorem Memory.wf_cons {c : Host.Cell} {m : List Host.Cell} :
    Memory.wf (c :: m) ↔ (∀ d ∈ m, c.1 < d.1) ∧ c.2 ≠ Config.powerUpOctet ∧ Memory.wf m := by
  simp only [Memory.wf, List.pairwise_cons, List.forall_mem_cons]
  tauto

/-- A read after a write: the written address gives the value, every other address what it gave before. -/
theorem Memory.read_write {m : List Host.Cell} (h : Memory.wf m) (a b : Nat) (v : Octet) :
    Memory.read (Memory.write m a v) b = if b = a then v else Memory.read m b := by
  induction m with
  | nil =>
    simp only [Memory.write]
    split <;> simp_all [Memory.read_cons, eq_comm]
  | cons c m ih =>
    obtain ⟨hlt, -, hm⟩ := Memory.wf_cons.1 h
    have ih := ih hm
    have none_listed : ∀ x, x ≤ c.1 → Memory.read m x = Config.powerUpOctet := fun x hx =>
      Memory.read_of_not_listed fun d hd => by have := hlt d hd; omega
    obtain ⟨e, w⟩ := c
    simp only [Memory.write]
    by_cases h1 : a < e
    · by_cases hv : v = Config.powerUpOctet
      · by_cases hb : b = a
        · subst hb; simp [h1, hv, Memory.read_cons, none_listed b (by simp; omega), show e ≠ b by omega]
        · simp [h1, hv, hb]
      · by_cases hb : b = a
        · simp [h1, hv, hb, Memory.read_cons]
        · simp [h1, hv, hb, Memory.read_cons, Ne.symm hb]
    · by_cases h2 : a = e
      · subst h2
        by_cases hv : v = Config.powerUpOctet
        · by_cases hb : b = a
          · subst hb; simp [hv, none_listed b (by simp)]
          · simp [hv, hb, Memory.read_cons, Ne.symm hb]
        · by_cases hb : b = a
          · simp [hv, hb, Memory.read_cons]
          · simp [hv, hb, Memory.read_cons, Ne.symm hb]
      · simp only [h1, h2, if_false, Memory.read_cons, ih]
        by_cases hb : b = a
        · simp [hb, Ne.symm h2]
        · simp [hb]

theorem Memory.read_write_same {m : List Host.Cell} (h : Memory.wf m) (a : Nat) (v : Octet) :
    Memory.read (Memory.write m a v) a = v := by simp [Memory.read_write h]

theorem Memory.read_write_other {m : List Host.Cell} (h : Memory.wf m) {a b : Nat} (hab : b ≠ a) (v : Octet) :
    Memory.read (Memory.write m a v) b = Memory.read m b := by simp [Memory.read_write h, hab]

/-- Every entry after a write is an old entry or the written one. -/
theorem Memory.mem_write {m : List Host.Cell} {a : Nat} {v : Octet} {c : Host.Cell}
    (h : c ∈ Memory.write m a v) : c ∈ m ∨ c = (a, v) := by
  induction m with
  | nil => simp only [Memory.write] at h; split at h <;> simp_all
  | cons d m ih =>
    obtain ⟨e, w⟩ := d
    simp only [Memory.write] at h
    split at h
    · split at h
      · exact .inl h
      · rcases List.mem_cons.1 h with h | h
        · exact .inr h
        · exact .inl h
    · split at h
      · split at h
        · exact .inl (List.mem_cons_of_mem _ h)
        · rcases List.mem_cons.1 h with h | h
          · exact .inr h
          · exact .inl (List.mem_cons_of_mem _ h)
      · rcases List.mem_cons.1 h with rfl | h
        · simp
        · rcases ih h with h | h <;> simp [h]

/-- A write keeps the canonical form. -/
theorem Memory.wf_write {m : List Host.Cell} (h : Memory.wf m) (a : Nat) (v : Octet) :
    Memory.wf (Memory.write m a v) := by
  induction m with
  | nil => simp only [Memory.write]; split <;> simp_all [Memory.wf]
  | cons d m ih =>
    obtain ⟨hlt, hw, hm⟩ := Memory.wf_cons.1 h
    obtain ⟨e, w⟩ := d
    simp only [Memory.write]
    split
    · split
      · exact h
      · refine Memory.wf_cons.2 ⟨?_, by assumption, h⟩
        intro c hc
        rcases List.mem_cons.1 hc with rfl | hc
        · assumption
        · have := hlt c hc; simp at *; omega
    · split
      · subst_vars
        split
        · exact hm
        · exact Memory.wf_cons.2 ⟨hlt, by assumption, hm⟩
      · refine Memory.wf_cons.2 ⟨?_, hw, ih hm⟩
        intro c hc
        rcases Memory.mem_write hc with hc | rfl
        · exact hlt c hc
        · simp at *; omega

/-- Canonical buffers that read the same are the same data. -/
theorem Memory.ext {m n : List Host.Cell} (hm : Memory.wf m) (hn : Memory.wf n)
    (h : ∀ a, Memory.read m a = Memory.read n a) : m = n := by
  induction m generalizing n with
  | nil =>
    cases n with
    | nil => rfl
    | cons d n =>
      have := h d.1
      simp [Memory.read_cons] at this
      exact absurd this.symm (Memory.wf_cons.1 hn).2.1
  | cons c m ih =>
    obtain ⟨hc, hcv, hm'⟩ := Memory.wf_cons.1 hm
    cases n with
    | nil =>
      have := h c.1
      simp [Memory.read_cons] at this
      exact absurd this hcv
    | cons d n =>
      obtain ⟨hd, hdv, hn'⟩ := Memory.wf_cons.1 hn
      have below : ∀ {l : List Host.Cell} {x : Nat}, (∀ e ∈ l, x < e.1) → ∀ a, a ≤ x →
          Memory.read l a = Config.powerUpOctet := fun hl a ha =>
        Memory.read_of_not_listed fun e he => by have := hl e he; omega
      have heq : c.1 = d.1 := by
        rcases lt_trichotomy c.1 d.1 with hlt | heq | hlt
        · have := h c.1
          simp [Memory.read_cons, Ne.symm hlt.ne, below hd c.1 hlt.le] at this
          exact absurd this hcv
        · exact heq
        · have := h d.1
          simp [Memory.read_cons, Ne.symm hlt.ne, below hc d.1 hlt.le] at this
          exact absurd this.symm hdv
      have hval : c.2 = d.2 := by
        have := h c.1
        simpa [Memory.read_cons, heq] using this
      have htail : m = n := by
        refine ih hm' hn' fun a => ?_
        have := h a
        rw [Memory.read_cons, Memory.read_cons, ← heq] at this
        by_cases ha : c.1 = a
        · rw [below hc a (by omega), below hd a (by omega)]
        · simpa [ha] using this
      rw [htail, Prod.ext heq hval]

end Sys2Proof.Machine
end

