-- ==== Sys2Proof/Laws/State.lean ====
section
/-! SUPPORT. What each named update of State does to each field: one lemma per field per update. -/

namespace Sys2Proof.Machine

variable (s : State)

/-! ### State.setLen -/

@[simp] theorem State.setLen_len (w : Word) : (s.setLen w).len = w := rfl
@[simp] theorem State.setLen_k (w : Word) : (s.setLen w).k = s.k := rfl
@[simp] theorem State.setLen_status (w : Word) : (s.setLen w).status = s.status := rfl
@[simp] theorem State.setLen_result (w : Word) : (s.setLen w).result = s.result := rfl
@[simp] theorem State.setLen_c0 (w : Word) : (s.setLen w).c0 = s.c0 := rfl
@[simp] theorem State.setLen_c1 (w : Word) : (s.setLen w).c1 = s.c1 := rfl
@[simp] theorem State.setLen_iq (w : Word) : (s.setLen w).iq = s.iq := rfl
@[simp] theorem State.setLen_ir (w : Word) : (s.setLen w).ir = s.ir := rfl
@[simp] theorem State.setLen_idx (w : Word) : (s.setLen w).idx = s.idx := rfl
@[simp] theorem State.setLen_segend (w : Word) : (s.setLen w).segend = s.segend := rfl
@[simp] theorem State.setLen_cap (w : Word) : (s.setLen w).cap = s.cap := rfl
@[simp] theorem State.setLen_buf (w : Word) : (s.setLen w).buf = s.buf := rfl
@[simp] theorem State.setLen_pending (w : Word) : (s.setLen w).pending = s.pending := rfl
@[simp] theorem State.setLen_reads (w : Word) : (s.setLen w).reads = s.reads := rfl
@[simp] theorem State.setLen_freeCount (w : Word) : (s.setLen w).freeCount = s.freeCount := rfl

/-! ### State.setK -/

@[simp] theorem State.setK_len (w : Word) : (s.setK w).len = s.len := rfl
@[simp] theorem State.setK_k (w : Word) : (s.setK w).k = w := rfl
@[simp] theorem State.setK_status (w : Word) : (s.setK w).status = s.status := rfl
@[simp] theorem State.setK_result (w : Word) : (s.setK w).result = s.result := rfl
@[simp] theorem State.setK_c0 (w : Word) : (s.setK w).c0 = s.c0 := rfl
@[simp] theorem State.setK_c1 (w : Word) : (s.setK w).c1 = s.c1 := rfl
@[simp] theorem State.setK_iq (w : Word) : (s.setK w).iq = s.iq := rfl
@[simp] theorem State.setK_ir (w : Word) : (s.setK w).ir = s.ir := rfl
@[simp] theorem State.setK_idx (w : Word) : (s.setK w).idx = s.idx := rfl
@[simp] theorem State.setK_segend (w : Word) : (s.setK w).segend = s.segend := rfl
@[simp] theorem State.setK_cap (w : Word) : (s.setK w).cap = s.cap := rfl
@[simp] theorem State.setK_buf (w : Word) : (s.setK w).buf = s.buf := rfl
@[simp] theorem State.setK_pending (w : Word) : (s.setK w).pending = s.pending := rfl
@[simp] theorem State.setK_reads (w : Word) : (s.setK w).reads = s.reads := rfl
@[simp] theorem State.setK_freeCount (w : Word) : (s.setK w).freeCount = s.freeCount := rfl

/-! ### State.setStatus -/

@[simp] theorem State.setStatus_len (w : Word) : (s.setStatus w).len = s.len := rfl
@[simp] theorem State.setStatus_k (w : Word) : (s.setStatus w).k = s.k := rfl
@[simp] theorem State.setStatus_status (w : Word) : (s.setStatus w).status = w := rfl
@[simp] theorem State.setStatus_result (w : Word) : (s.setStatus w).result = s.result := rfl
@[simp] theorem State.setStatus_c0 (w : Word) : (s.setStatus w).c0 = s.c0 := rfl
@[simp] theorem State.setStatus_c1 (w : Word) : (s.setStatus w).c1 = s.c1 := rfl
@[simp] theorem State.setStatus_iq (w : Word) : (s.setStatus w).iq = s.iq := rfl
@[simp] theorem State.setStatus_ir (w : Word) : (s.setStatus w).ir = s.ir := rfl
@[simp] theorem State.setStatus_idx (w : Word) : (s.setStatus w).idx = s.idx := rfl
@[simp] theorem State.setStatus_segend (w : Word) : (s.setStatus w).segend = s.segend := rfl
@[simp] theorem State.setStatus_cap (w : Word) : (s.setStatus w).cap = s.cap := rfl
@[simp] theorem State.setStatus_buf (w : Word) : (s.setStatus w).buf = s.buf := rfl
@[simp] theorem State.setStatus_pending (w : Word) : (s.setStatus w).pending = s.pending := rfl
@[simp] theorem State.setStatus_reads (w : Word) : (s.setStatus w).reads = s.reads := rfl
@[simp] theorem State.setStatus_freeCount (w : Word) : (s.setStatus w).freeCount = s.freeCount := rfl

/-! ### State.setResult -/

@[simp] theorem State.setResult_len (w : Word) : (s.setResult w).len = s.len := rfl
@[simp] theorem State.setResult_k (w : Word) : (s.setResult w).k = s.k := rfl
@[simp] theorem State.setResult_status (w : Word) : (s.setResult w).status = s.status := rfl
@[simp] theorem State.setResult_result (w : Word) : (s.setResult w).result = w := rfl
@[simp] theorem State.setResult_c0 (w : Word) : (s.setResult w).c0 = s.c0 := rfl
@[simp] theorem State.setResult_c1 (w : Word) : (s.setResult w).c1 = s.c1 := rfl
@[simp] theorem State.setResult_iq (w : Word) : (s.setResult w).iq = s.iq := rfl
@[simp] theorem State.setResult_ir (w : Word) : (s.setResult w).ir = s.ir := rfl
@[simp] theorem State.setResult_idx (w : Word) : (s.setResult w).idx = s.idx := rfl
@[simp] theorem State.setResult_segend (w : Word) : (s.setResult w).segend = s.segend := rfl
@[simp] theorem State.setResult_cap (w : Word) : (s.setResult w).cap = s.cap := rfl
@[simp] theorem State.setResult_buf (w : Word) : (s.setResult w).buf = s.buf := rfl
@[simp] theorem State.setResult_pending (w : Word) : (s.setResult w).pending = s.pending := rfl
@[simp] theorem State.setResult_reads (w : Word) : (s.setResult w).reads = s.reads := rfl
@[simp] theorem State.setResult_freeCount (w : Word) : (s.setResult w).freeCount = s.freeCount := rfl

/-! ### State.setSums -/

@[simp] theorem State.setSums_len (a b : Word) : (s.setSums a b).len = s.len := rfl
@[simp] theorem State.setSums_k (a b : Word) : (s.setSums a b).k = s.k := rfl
@[simp] theorem State.setSums_status (a b : Word) : (s.setSums a b).status = s.status := rfl
@[simp] theorem State.setSums_result (a b : Word) : (s.setSums a b).result = s.result := rfl
@[simp] theorem State.setSums_c0 (a b : Word) : (s.setSums a b).c0 = a := rfl
@[simp] theorem State.setSums_c1 (a b : Word) : (s.setSums a b).c1 = b := rfl
@[simp] theorem State.setSums_iq (a b : Word) : (s.setSums a b).iq = s.iq := rfl
@[simp] theorem State.setSums_ir (a b : Word) : (s.setSums a b).ir = s.ir := rfl
@[simp] theorem State.setSums_idx (a b : Word) : (s.setSums a b).idx = s.idx := rfl
@[simp] theorem State.setSums_segend (a b : Word) : (s.setSums a b).segend = s.segend := rfl
@[simp] theorem State.setSums_cap (a b : Word) : (s.setSums a b).cap = s.cap := rfl
@[simp] theorem State.setSums_buf (a b : Word) : (s.setSums a b).buf = s.buf := rfl
@[simp] theorem State.setSums_pending (a b : Word) : (s.setSums a b).pending = s.pending := rfl
@[simp] theorem State.setSums_reads (a b : Word) : (s.setSums a b).reads = s.reads := rfl
@[simp] theorem State.setSums_freeCount (a b : Word) : (s.setSums a b).freeCount = s.freeCount := rfl

/-! ### State.setOctets -/

@[simp] theorem State.setOctets_len (a b : Octet) : (s.setOctets a b).len = s.len := rfl
@[simp] theorem State.setOctets_k (a b : Octet) : (s.setOctets a b).k = s.k := rfl
@[simp] theorem State.setOctets_status (a b : Octet) : (s.setOctets a b).status = s.status := rfl
@[simp] theorem State.setOctets_result (a b : Octet) : (s.setOctets a b).result = s.result := rfl
@[simp] theorem State.setOctets_c0 (a b : Octet) : (s.setOctets a b).c0 = s.c0 := rfl
@[simp] theorem State.setOctets_c1 (a b : Octet) : (s.setOctets a b).c1 = s.c1 := rfl
@[simp] theorem State.setOctets_iq (a b : Octet) : (s.setOctets a b).iq = a := rfl
@[simp] theorem State.setOctets_ir (a b : Octet) : (s.setOctets a b).ir = b := rfl
@[simp] theorem State.setOctets_idx (a b : Octet) : (s.setOctets a b).idx = s.idx := rfl
@[simp] theorem State.setOctets_segend (a b : Octet) : (s.setOctets a b).segend = s.segend := rfl
@[simp] theorem State.setOctets_cap (a b : Octet) : (s.setOctets a b).cap = s.cap := rfl
@[simp] theorem State.setOctets_buf (a b : Octet) : (s.setOctets a b).buf = s.buf := rfl
@[simp] theorem State.setOctets_pending (a b : Octet) : (s.setOctets a b).pending = s.pending := rfl
@[simp] theorem State.setOctets_reads (a b : Octet) : (s.setOctets a b).reads = s.reads := rfl
@[simp] theorem State.setOctets_freeCount (a b : Octet) : (s.setOctets a b).freeCount = s.freeCount := rfl

/-! ### State.setIdx -/

@[simp] theorem State.setIdx_len (w : Word) : (s.setIdx w).len = s.len := rfl
@[simp] theorem State.setIdx_k (w : Word) : (s.setIdx w).k = s.k := rfl
@[simp] theorem State.setIdx_status (w : Word) : (s.setIdx w).status = s.status := rfl
@[simp] theorem State.setIdx_result (w : Word) : (s.setIdx w).result = s.result := rfl
@[simp] theorem State.setIdx_c0 (w : Word) : (s.setIdx w).c0 = s.c0 := rfl
@[simp] theorem State.setIdx_c1 (w : Word) : (s.setIdx w).c1 = s.c1 := rfl
@[simp] theorem State.setIdx_iq (w : Word) : (s.setIdx w).iq = s.iq := rfl
@[simp] theorem State.setIdx_ir (w : Word) : (s.setIdx w).ir = s.ir := rfl
@[simp] theorem State.setIdx_idx (w : Word) : (s.setIdx w).idx = w := rfl
@[simp] theorem State.setIdx_segend (w : Word) : (s.setIdx w).segend = s.segend := rfl
@[simp] theorem State.setIdx_cap (w : Word) : (s.setIdx w).cap = s.cap := rfl
@[simp] theorem State.setIdx_buf (w : Word) : (s.setIdx w).buf = s.buf := rfl
@[simp] theorem State.setIdx_pending (w : Word) : (s.setIdx w).pending = s.pending := rfl
@[simp] theorem State.setIdx_reads (w : Word) : (s.setIdx w).reads = s.reads := rfl
@[simp] theorem State.setIdx_freeCount (w : Word) : (s.setIdx w).freeCount = s.freeCount := rfl

/-! ### State.setSegend -/

@[simp] theorem State.setSegend_len (w : Word) : (s.setSegend w).len = s.len := rfl
@[simp] theorem State.setSegend_k (w : Word) : (s.setSegend w).k = s.k := rfl
@[simp] theorem State.setSegend_status (w : Word) : (s.setSegend w).status = s.status := rfl
@[simp] theorem State.setSegend_result (w : Word) : (s.setSegend w).result = s.result := rfl
@[simp] theorem State.setSegend_c0 (w : Word) : (s.setSegend w).c0 = s.c0 := rfl
@[simp] theorem State.setSegend_c1 (w : Word) : (s.setSegend w).c1 = s.c1 := rfl
@[simp] theorem State.setSegend_iq (w : Word) : (s.setSegend w).iq = s.iq := rfl
@[simp] theorem State.setSegend_ir (w : Word) : (s.setSegend w).ir = s.ir := rfl
@[simp] theorem State.setSegend_idx (w : Word) : (s.setSegend w).idx = s.idx := rfl
@[simp] theorem State.setSegend_segend (w : Word) : (s.setSegend w).segend = w := rfl
@[simp] theorem State.setSegend_cap (w : Word) : (s.setSegend w).cap = s.cap := rfl
@[simp] theorem State.setSegend_buf (w : Word) : (s.setSegend w).buf = s.buf := rfl
@[simp] theorem State.setSegend_pending (w : Word) : (s.setSegend w).pending = s.pending := rfl
@[simp] theorem State.setSegend_reads (w : Word) : (s.setSegend w).reads = s.reads := rfl
@[simp] theorem State.setSegend_freeCount (w : Word) : (s.setSegend w).freeCount = s.freeCount := rfl

/-! ### State.setBuf -/

@[simp] theorem State.setBuf_len (m : List Host.Cell) : (s.setBuf m).len = s.len := rfl
@[simp] theorem State.setBuf_k (m : List Host.Cell) : (s.setBuf m).k = s.k := rfl
@[simp] theorem State.setBuf_status (m : List Host.Cell) : (s.setBuf m).status = s.status := rfl
@[simp] theorem State.setBuf_result (m : List Host.Cell) : (s.setBuf m).result = s.result := rfl
@[simp] theorem State.setBuf_c0 (m : List Host.Cell) : (s.setBuf m).c0 = s.c0 := rfl
@[simp] theorem State.setBuf_c1 (m : List Host.Cell) : (s.setBuf m).c1 = s.c1 := rfl
@[simp] theorem State.setBuf_iq (m : List Host.Cell) : (s.setBuf m).iq = s.iq := rfl
@[simp] theorem State.setBuf_ir (m : List Host.Cell) : (s.setBuf m).ir = s.ir := rfl
@[simp] theorem State.setBuf_idx (m : List Host.Cell) : (s.setBuf m).idx = s.idx := rfl
@[simp] theorem State.setBuf_segend (m : List Host.Cell) : (s.setBuf m).segend = s.segend := rfl
@[simp] theorem State.setBuf_cap (m : List Host.Cell) : (s.setBuf m).cap = s.cap := rfl
@[simp] theorem State.setBuf_buf (m : List Host.Cell) : (s.setBuf m).buf = m := rfl
@[simp] theorem State.setBuf_pending (m : List Host.Cell) : (s.setBuf m).pending = s.pending := rfl
@[simp] theorem State.setBuf_reads (m : List Host.Cell) : (s.setBuf m).reads = s.reads := rfl
@[simp] theorem State.setBuf_freeCount (m : List Host.Cell) : (s.setBuf m).freeCount = s.freeCount := rfl

/-! ### State.setPending -/

@[simp] theorem State.setPending_len (l : List Input) : (s.setPending l).len = s.len := rfl
@[simp] theorem State.setPending_k (l : List Input) : (s.setPending l).k = s.k := rfl
@[simp] theorem State.setPending_status (l : List Input) : (s.setPending l).status = s.status := rfl
@[simp] theorem State.setPending_result (l : List Input) : (s.setPending l).result = s.result := rfl
@[simp] theorem State.setPending_c0 (l : List Input) : (s.setPending l).c0 = s.c0 := rfl
@[simp] theorem State.setPending_c1 (l : List Input) : (s.setPending l).c1 = s.c1 := rfl
@[simp] theorem State.setPending_iq (l : List Input) : (s.setPending l).iq = s.iq := rfl
@[simp] theorem State.setPending_ir (l : List Input) : (s.setPending l).ir = s.ir := rfl
@[simp] theorem State.setPending_idx (l : List Input) : (s.setPending l).idx = s.idx := rfl
@[simp] theorem State.setPending_segend (l : List Input) : (s.setPending l).segend = s.segend := rfl
@[simp] theorem State.setPending_cap (l : List Input) : (s.setPending l).cap = s.cap := rfl
@[simp] theorem State.setPending_buf (l : List Input) : (s.setPending l).buf = s.buf := rfl
@[simp] theorem State.setPending_pending (l : List Input) : (s.setPending l).pending = l := rfl
@[simp] theorem State.setPending_reads (l : List Input) : (s.setPending l).reads = s.reads := rfl
@[simp] theorem State.setPending_freeCount (l : List Input) : (s.setPending l).freeCount = s.freeCount := rfl

/-! ### State.deliver -/

@[simp] theorem State.deliver_len (w : Word) : (s.deliver w).len = s.len := rfl
@[simp] theorem State.deliver_k (w : Word) : (s.deliver w).k = s.k := rfl
@[simp] theorem State.deliver_status (w : Word) : (s.deliver w).status = s.status := rfl
@[simp] theorem State.deliver_result (w : Word) : (s.deliver w).result = s.result := rfl
@[simp] theorem State.deliver_c0 (w : Word) : (s.deliver w).c0 = s.c0 := rfl
@[simp] theorem State.deliver_c1 (w : Word) : (s.deliver w).c1 = s.c1 := rfl
@[simp] theorem State.deliver_iq (w : Word) : (s.deliver w).iq = s.iq := rfl
@[simp] theorem State.deliver_ir (w : Word) : (s.deliver w).ir = s.ir := rfl
@[simp] theorem State.deliver_idx (w : Word) : (s.deliver w).idx = s.idx := rfl
@[simp] theorem State.deliver_segend (w : Word) : (s.deliver w).segend = s.segend := rfl
@[simp] theorem State.deliver_cap (w : Word) : (s.deliver w).cap = s.cap := rfl
@[simp] theorem State.deliver_buf (w : Word) : (s.deliver w).buf = s.buf := rfl
@[simp] theorem State.deliver_pending (w : Word) : (s.deliver w).pending = s.pending := rfl
@[simp] theorem State.deliver_reads (w : Word) : (s.deliver w).reads = w :: s.reads := rfl
@[simp] theorem State.deliver_freeCount (w : Word) : (s.deliver w).freeCount = s.freeCount := rfl

/-! ### State.setFreeCount -/

@[simp] theorem State.setFreeCount_len (n : Nat) : (s.setFreeCount n).len = s.len := rfl
@[simp] theorem State.setFreeCount_k (n : Nat) : (s.setFreeCount n).k = s.k := rfl
@[simp] theorem State.setFreeCount_status (n : Nat) : (s.setFreeCount n).status = s.status := rfl
@[simp] theorem State.setFreeCount_result (n : Nat) : (s.setFreeCount n).result = s.result := rfl
@[simp] theorem State.setFreeCount_c0 (n : Nat) : (s.setFreeCount n).c0 = s.c0 := rfl
@[simp] theorem State.setFreeCount_c1 (n : Nat) : (s.setFreeCount n).c1 = s.c1 := rfl
@[simp] theorem State.setFreeCount_iq (n : Nat) : (s.setFreeCount n).iq = s.iq := rfl
@[simp] theorem State.setFreeCount_ir (n : Nat) : (s.setFreeCount n).ir = s.ir := rfl
@[simp] theorem State.setFreeCount_idx (n : Nat) : (s.setFreeCount n).idx = s.idx := rfl
@[simp] theorem State.setFreeCount_segend (n : Nat) : (s.setFreeCount n).segend = s.segend := rfl
@[simp] theorem State.setFreeCount_cap (n : Nat) : (s.setFreeCount n).cap = s.cap := rfl
@[simp] theorem State.setFreeCount_buf (n : Nat) : (s.setFreeCount n).buf = s.buf := rfl
@[simp] theorem State.setFreeCount_pending (n : Nat) : (s.setFreeCount n).pending = s.pending := rfl
@[simp] theorem State.setFreeCount_reads (n : Nat) : (s.setFreeCount n).reads = s.reads := rfl
@[simp] theorem State.setFreeCount_freeCount (n : Nat) : (s.setFreeCount n).freeCount = n := rfl

/-! ### Updates written twice -/

@[simp] theorem State.setBuf_setBuf (m m' : List Host.Cell) : (s.setBuf m).setBuf m' = s.setBuf m' := rfl
@[simp] theorem State.setSums_setSums (a b c d : Word) : (s.setSums a b).setSums c d = s.setSums c d := rfl
@[simp] theorem State.setIdx_setIdx (v w : Word) : (s.setIdx v).setIdx w = s.setIdx w := rfl
@[simp] theorem State.setSegend_setSegend (v w : Word) : (s.setSegend v).setSegend w = s.setSegend w := rfl
@[simp] theorem State.setFreeCount_self : s.setFreeCount s.freeCount = s := rfl

end Sys2Proof.Machine
end

