-- ==== Sys2Proof/Laws/Ops.lean ====
section
/-! SUPPORT. What the shared operations can do: memory accesses, narrowing, the argument check, exceptions, outcomes. -/

namespace Sys2Proof.Machine

/-! ### Outcomes -/

section
variable {α β φ ρ : Type} (f : α → Host.Outcome β φ ρ)

@[simp] theorem andThen_next (a : α) : andThen (.next a) f = f a := rfl
@[simp] theorem andThen_fault (r : φ) : andThen (.fault r) f = .fault r := rfl
@[simp] theorem andThen_refused (r : ρ) : andThen (.refused r) f = .refused r := rfl
end

@[simp] theorem settle_ok {α : Type} (a : α) : settle (.ok a) = .next a := rfl
@[simp] theorem settle_error {α : Type} (f : Fault) : settle (.error f : Except Fault α) = .fault f := rfl

/-! ### Memory accesses -/

theorem memRead_inside {s : State} {i : Nat} (h : i < s.cap.val) :
    memRead s i = .ok (Memory.read s.buf i) := if_pos h

theorem memRead_outside {s : State} {i : Nat} (h : s.cap.val ≤ i) :
    memRead s i = .error .outsideBuffer := if_neg (by omega)

theorem memWrite_inside {s : State} {i : Nat} (h : i < s.cap.val) (v : Octet) :
    memWrite s i v = .ok (s.setBuf (Memory.write s.buf i v)) := if_pos h

theorem memWrite_outside {s : State} {i : Nat} (h : s.cap.val ≤ i) (v : Octet) :
    memWrite s i v = .error .outsideBuffer := if_neg (by omega)

/-- If a write answers, it was inside the buffer and changed the buffer alone. -/
theorem memWrite_cases {s t : State} {i : Nat} {v : Octet} (h : memWrite s i v = .ok t) :
    i < s.cap.val ∧ t = s.setBuf (Memory.write s.buf i v) := by
  unfold memWrite at h
  split at h
  · exact ⟨‹_›, by simpa using h.symm⟩
  · simp at h

/-- A write of an octet that exists keeps the buffer's form. -/
theorem State.wf_write {s : State} (h : s.wf) {i : Nat} (hi : i < s.cap.val) (v : Octet) :
    (s.setBuf (Memory.write s.buf i v)).wf := by
  refine ⟨Memory.wf_write h.1 i v, fun c hc => ?_⟩
  rcases Memory.mem_write hc with hc | rfl
  · exact h.2 c hc
  · exact hi

/-! ### Narrowing -/

theorem latchWord_fits {n : Nat} (h : n < 4294967296) (d : Nat) : latchWord n d = BitVec.ofNat 32 n := if_pos h
theorem latchWordDraws_fits {n : Nat} (h : n < 4294967296) : latchWordDraws n = 0 := if_pos h
theorem latchOctet_fits {v : Int} (h : 0 ≤ v ∧ v ≤ 255) (d : Nat) : latchOctet v d = BitVec.ofInt 8 v := if_pos h
theorem latchOctetDraws_fits {v : Int} (h : 0 ≤ v ∧ v ≤ 255) : latchOctetDraws v = 0 := if_pos h

theorem toNat_ofNat_word {n : Nat} (h : n < 4294967296) : (BitVec.ofNat 32 n).toNat = n := by
  simpa using Nat.mod_eq_of_lt h

/-! ### The argument check -/

/-- The check passes exactly on the legal domain. -/
theorem checkArgs_none {cap : Nat} {len k : Int} : checkArgs cap len k = none ↔ LegalArgs cap len k := by
  unfold checkArgs LegalArgs
  split_ifs <;> simp <;> omega

/-! ### Exceptions -/

@[simp] theorem raise_status (e : Exception) (s : State) : (raise e s).status = exceptionStatus e := rfl
@[simp] theorem raise_result (e : Exception) (s : State) : (raise e s).result = Config.freeWord s.freeCount := rfl

/-- Taking an exception writes STATUS and RESULT, draws one free value, and changes nothing else. -/
theorem raise_eq (e : Exception) (s : State) :
    raise e s = { s with
      status := exceptionStatus e, result := Config.freeWord s.freeCount, freeCount := s.freeCount + 1 } := rfl

/-- The engine produces a legal STATUS on every exception, and its CODE is not OK. -/
theorem exceptionStatus_legal (e : Exception) :
    statusLegal (exceptionStatus e) ∧ statusCode (exceptionStatus e) ≠ 0 := by
  rcases e with c | _
  · cases c <;> decide
  · decide

theorem raise_inv (e : Exception) {s : State} (h : s.wf) : (raise e s).Inv :=
  ⟨h, (exceptionStatus_legal e).1, fun h0 => absurd h0 (exceptionStatus_legal e).2⟩

end Sys2Proof.Machine
end

