-- ==== Sys2Proof/Laws/Accumulator.lean ====
section
/-! SUPPORT. What the accumulator's operations do: absorbing within the register bounds, one segment, and ACCUMULATE's frame. -/

namespace Sys2Proof.Machine

/-! ### The reference sums, one octet at a time from the front -/

@[simp] theorem plainSum_zero (f : Nat → Nat) : plainSum f 0 = 0 := rfl
@[simp] theorem weightedSum_zero (f : Nat → Nat) : weightedSum f 0 = 0 := rfl

theorem plainSum_succ_front (f : Nat → Nat) (n : Nat) :
    plainSum f (n + 1) = f 0 + plainSum (fun i => f (i + 1)) n := by
  simp only [plainSum, Finset.sum_range_succ']
  omega

theorem weightedSum_succ_front (f : Nat → Nat) (n : Nat) :
    weightedSum f (n + 1) = (n + 1) * f 0 + weightedSum (fun i => f (i + 1)) n := by
  simp only [weightedSum, Finset.sum_range_succ', Nat.sub_zero]
  rw [Nat.add_comm]
  congr 1
  refine Finset.sum_congr rfl fun i hi => ?_
  rw [show n + 1 - (i + 1) = n - i by omega]

/-- The plain sum of `n` octets is at most `255 * n`. -/
theorem plainSum_le {f : Nat → Nat} (hf : ∀ i, f i ≤ 255) (n : Nat) : plainSum f n ≤ 255 * n := by
  induction n generalizing f with
  | zero => simp
  | succ n ih =>
    rw [plainSum_succ_front]
    have := ih (f := fun i => f (i + 1)) fun i => hf _
    have := hf 0
    omega

/-- Twice the weighted sum of `n` octets is at most `255 * n * (n + 1)` (R80). -/
theorem weightedSum_le {f : Nat → Nat} (hf : ∀ i, f i ≤ 255) (n : Nat) :
    2 * weightedSum f n ≤ 255 * (n * (n + 1)) := by
  induction n generalizing f with
  | zero => simp
  | succ n ih =>
    rw [weightedSum_succ_front]
    have h1 := ih (f := fun i => f (i + 1)) fun i => hf _
    have h2 := Nat.mul_le_mul_left (n + 1) (hf 0)
    nlinarith

theorem octetAt_le (s : State) (i : Nat) : octetAt s i ≤ 255 := by
  have := (Memory.read s.buf i).isLt
  simp only [octetAt]; omega

/-! ### Micro-operations -/

/-- Absorbing an octet where both sums stay inside 32 bits: exact sums, and no free value drawn. -/
theorem absorb_fits {s : State} {b : Octet} (h0 : s.c0.toNat + b.toNat < 4294967296)
    (h1 : s.c1.toNat + (s.c0.toNat + b.toNat) < 4294967296) :
    absorb b s = s.setSums (BitVec.ofNat 32 (s.c0.toNat + b.toNat))
      (BitVec.ofNat 32 (s.c1.toNat + (s.c0.toNat + b.toNat))) := by
  have h1' : s.c1.toNat + (latchWord (s.c0.toNat + b.toNat) s.freeCount).toNat < 4294967296 := by
    rw [latchWord_fits h0, toNat_ofNat_word h0]; exact h1
  simp only [absorb, latchWordDraws_fits h0, latchWordDraws_fits h1', latchWord_fits h1']
  rw [latchWord_fits h0, toNat_ofNat_word h0]
  rfl

/-- Whatever the sums, absorbing changes the two sums and the count of free values, and nothing else. -/
theorem absorb_frame (b : Octet) (s : State) :
    absorb b s = (s.setSums (absorb b s).c0 (absorb b s).c1).setFreeCount (absorb b s).freeCount := rfl

@[simp] theorem reduceSums_c0 (s : State) : (reduceSums s).c0.toNat = s.c0.toNat % 255 := by
  simp only [reduceSums, State.setSums_c0, Config.modulus]
  exact toNat_ofNat_word (by omega)

@[simp] theorem reduceSums_c1 (s : State) : (reduceSums s).c1.toNat = s.c1.toNat % 255 := by
  simp only [reduceSums, State.setSums_c1, Config.modulus]
  exact toNat_ofNat_word (by omega)

/-! ### Segments -/

/-- What the inner loop does over `n` octets inside the buffer, while both exact sums stay inside 32 bits. -/
theorem absorbOctets_eq {n : Nat} {s : State} (hidx : s.idx.toNat + n ≤ s.cap.val)
    (h0 : s.c0.toNat + 255 * n < 4294967296)
    (h1 : 2 * (s.c1.toNat + n * s.c0.toNat) + 255 * (n * (n + 1)) < 8589934592) :
    absorbOctets n s = .ok ((s.setSums
        (BitVec.ofNat 32 (s.c0.toNat + plainSum (fun i => octetAt s (s.idx.toNat + i)) n))
        (BitVec.ofNat 32 (s.c1.toNat + n * s.c0.toNat + weightedSum (fun i => octetAt s (s.idx.toNat + i)) n))).setIdx
        (BitVec.ofNat 32 (s.idx.toNat + n))) := by
  induction n generalizing s with
  | zero => simp only [absorbOctets, plainSum_zero, weightedSum_zero, Nat.zero_mul, Nat.add_zero, BitVec.ofNat_toNat]; rfl
  | succ n ih =>
    have hcap := s.cap.isLt
    simp only [Config.capLimit] at hcap
    have hb := octetAt_le s s.idx.toNat
    simp only [octetAt] at hb
    have hn : n ≤ n * (n + 1) := Nat.le_mul_of_pos_right n (by omega)
    have e1 : (n + 1) * (n + 1 + 1) = n * (n + 1) + 2 * n + 2 := by ring
    have e2 : (n + 1) * s.c0.toNat = n * s.c0.toNat + s.c0.toNat := by ring
    have g0 : s.c0.toNat + (Memory.read s.buf s.idx.toNat).toNat < 4294967296 := by omega
    have g1 : s.c1.toNat + (s.c0.toNat + (Memory.read s.buf s.idx.toNat).toNat) < 4294967296 := by omega
    have gi : s.idx.toNat + 1 < 4294967296 := by omega
    simp only [absorbOctets, memRead_inside (s := s) (i := s.idx.toNat) (by omega), absorb_fits g0 g1]
    set b := (Memory.read s.buf s.idx.toNat).toNat with hbdef
    have e3 : n * (s.c0.toNat + b) = n * s.c0.toNat + n * b := by ring
    have e4 : n * b ≤ n * 255 := Nat.mul_le_mul_left n hb
    rw [ih]
    · simp only [advanceIdx, State.setIdx_c0, State.setIdx_c1, State.setIdx_idx, State.setSums_c0, State.setSums_c1,
        State.setSums_idx, toNat_ofNat_word g0, toNat_ofNat_word g1, toNat_ofNat_word gi]
      rw [plainSum_succ_front, weightedSum_succ_front]
      have hf : (fun i => octetAt ((s.setSums (BitVec.ofNat 32 (s.c0.toNat + b))
          (BitVec.ofNat 32 (s.c1.toNat + (s.c0.toNat + b)))).setIdx (BitVec.ofNat 32 (s.idx.toNat + 1)))
            (s.idx.toNat + 1 + i)) = fun i => octetAt s (s.idx.toNat + (i + 1)) := by
        funext i
        simp only [octetAt, State.setIdx_buf, State.setSums_buf]
        rw [Nat.add_assoc, Nat.add_comm 1 i]
      have hz : octetAt s (s.idx.toNat + 0) = b := by simp only [octetAt, Nat.add_zero]; exact hbdef.symm
      rw [hf, hz]
      generalize plainSum (fun i => octetAt s (s.idx.toNat + (i + 1))) n = p
      generalize weightedSum (fun i => octetAt s (s.idx.toNat + (i + 1))) n = w
      rw [show s.c0.toNat + b + p = s.c0.toNat + (b + p) by omega,
        show s.c1.toNat + (s.c0.toNat + b) + n * (s.c0.toNat + b) + w =
          s.c1.toNat + (n + 1) * s.c0.toNat + ((n + 1) * b + w) by ring,
        show s.idx.toNat + 1 + n = s.idx.toNat + (n + 1) by omega]
      rfl
    · simp only [advanceIdx, State.setIdx_idx, State.setSums_idx, toNat_ofNat_word gi, State.setIdx_cap, State.setSums_cap]
      omega
    · simp only [advanceIdx, State.setIdx_c0, State.setSums_c0, toNat_ofNat_word g0]
      omega
    · simp only [advanceIdx, State.setIdx_c0, State.setIdx_c1, State.setSums_c0, State.setSums_c1, toNat_ofNat_word g0,
        toNat_ofNat_word g1]
      omega

/-- The register bounds of R80 keep a whole segment inside the 32-bit registers. -/
theorem segment_fits {c0 c1 n : Nat} (h0 : c0 ≤ 254) (h1 : c1 ≤ 254) (hn : n ≤ 4102) :
    c0 + 255 * n < 4294967296 ∧ 2 * (c1 + n * c0) + 255 * (n * (n + 1)) < 8589934592 := by
  have e1 : n * c0 ≤ 4102 * 254 := Nat.mul_le_mul hn h0
  have e2 : n * (n + 1) ≤ 4102 * 4103 := Nat.mul_le_mul hn (by omega)
  constructor <;> omega

/-- What one segment does from reduced sums: the sums of its octets, reduced, and `IDX` and `SEGEND` at its end. -/
theorem accumulateSegment_eq {len : Nat} {s : State} (hlen : len ≤ s.cap.val) (hidx : s.idx.toNat ≤ len)
    (h0 : s.c0.toNat ≤ 254) (h1 : s.c1.toNat ≤ 254) :
    let m := min (s.idx.toNat + 4102) len
    let n := m - s.idx.toNat
    let octet := fun i => octetAt s (s.idx.toNat + i)
    accumulateSegment len s = .ok ((((s.setSegend (BitVec.ofNat 32 m)).setIdx (BitVec.ofNat 32 m)).setSums
      (BitVec.ofNat 32 ((s.c0.toNat + plainSum octet n) % 255))
      (BitVec.ofNat 32 ((s.c1.toNat + n * s.c0.toNat + weightedSum octet n) % 255)))) := by
  intro m n octet
  have hcap := s.cap.isLt
  simp only [Config.capLimit] at hcap
  have hm : m < 4294967296 := by omega
  have hn : n ≤ 4102 := by omega
  obtain ⟨f0, f1⟩ := segment_fits h0 h1 hn
  have hseg : (startSegment len s).segend.toNat = m := by
    simp only [startSegment, State.setSegend_segend]; exact toNat_ofNat_word hm
  have hid : (startSegment len s).idx = s.idx := rfl
  have p1 := plainSum_le (f := octet) (fun i => octetAt_le s _) n
  have w1 := weightedSum_le (f := octet) (fun i => octetAt_le s _) n
  have habs := absorbOctets_eq (n := n) (s := startSegment len s)
    (by rw [hid]; simp only [startSegment, State.setSegend_cap]; omega)
    (by simpa [startSegment] using f0) (by simpa [startSegment] using f1)
  simp only [accumulateSegment, hseg, hid]
  rw [show m - s.idx.toNat = n from rfl, habs]
  simp only [reduceSums, State.setIdx_c0, State.setIdx_c1, State.setSums_c0, State.setSums_c1, Config.modulus]
  have ho : (fun i => octetAt (startSegment len s) ((startSegment len s).idx.toNat + i)) = octet := rfl
  have hc0 : (startSegment len s).c0 = s.c0 := rfl
  have hc1 : (startSegment len s).c1 = s.c1 := rfl
  rw [ho, hc0, hc1, hid, toNat_ofNat_word (n := s.c0.toNat + plainSum octet n) (by omega),
    toNat_ofNat_word (n := s.c1.toNat + n * s.c0.toNat + weightedSum octet n) (by omega),
    show s.idx.toNat + n = m by omega]
  rfl

/-- Exactly the segments that are left, from reduced sums: they always answer, inside the buffer, and change the
sums, which they leave reduced, `IDX` and `SEGEND`, which they leave at `len`, and nothing else. -/
theorem accumulateSegments_frame {len : Nat} (n : Nat) {s : State} (hlen : len ≤ s.cap.val) (hidx : s.idx.toNat ≤ len)
    (h0 : s.c0.toNat ≤ 254) (h1 : s.c1.toNat ≤ 254) (hn : len ≤ s.idx.toNat + 4102 * n)
    (hn' : s.idx.toNat + 4102 * n < len + 4102) :
    ∃ a b e, a.toNat ≤ 254 ∧ b.toNat ≤ 254 ∧ e = (if s.idx.toNat < len then BitVec.ofNat 32 len else s.segend) ∧
      accumulateSegments len n s = .ok (((s.setSegend e).setIdx (BitVec.ofNat 32 len)).setSums a b) := by
  induction n generalizing s with
  | zero =>
    have : s.idx.toNat = len := by omega
    refine ⟨s.c0, s.c1, s.segend, h0, h1, by rw [if_neg (by omega)], ?_⟩
    rw [← this, BitVec.ofNat_toNat]
    rfl
  | succ n ih =>
    have hcap := s.cap.isLt
    simp only [Config.capLimit] at hcap
    have hseg := accumulateSegment_eq hlen hidx h0 h1
    simp only at hseg
    simp only [accumulateSegments, hseg]
    set m := min (s.idx.toNat + 4102) len with hm
    have hmt : (BitVec.ofNat 32 m).toNat = m := toNat_ofNat_word (by omega)
    generalize hx : s.c0.toNat + plainSum _ _ = x
    generalize hy : s.c1.toNat + _ * s.c0.toNat + weightedSum _ _ = y
    have hxt : (BitVec.ofNat 32 (x % 255)).toNat = x % 255 := toNat_ofNat_word (by omega)
    have hyt : (BitVec.ofNat 32 (y % 255)).toNat = y % 255 := toNat_ofNat_word (by omega)
    obtain ⟨a, b, e, ha, hb, he, heq⟩ := ih
      (s := ((s.setSegend (BitVec.ofNat 32 m)).setIdx (BitVec.ofNat 32 m)).setSums (BitVec.ofNat 32 (x % 255))
        (BitVec.ofNat 32 (y % 255)))
      (by simpa using hlen) (by simp only [State.setSums_idx, State.setIdx_idx, hmt]; omega)
      (by simp only [State.setSums_c0, hxt]; omega) (by simp only [State.setSums_c1, hyt]; omega)
      (by simp only [State.setSums_idx, State.setIdx_idx, hmt]; omega)
      (by simp only [State.setSums_idx, State.setIdx_idx, hmt]; omega)
    refine ⟨a, b, e, ha, hb, ?_, heq⟩
    simp only [State.setSums_idx, State.setIdx_idx, State.setSums_segend, State.setIdx_segend, State.setSegend_segend, hmt] at he
    rw [he]
    split_ifs with h1 h2 h2
    · rfl
    · omega
    · rw [show m = len by omega]
    · omega

/-- The number of segments of the greedy partition is `ceil(len / 4102)` (R77). -/
theorem segmentCount_bounds (len : Nat) :
    len ≤ 4102 * segmentCount len ∧ 4102 * segmentCount len < len + 4102 := by
  simp only [segmentCount, Config.maxSegment]
  omega

/-- ACCUMULATE over `len` octets inside the buffer always answers. Its frame: it changes the sums, which it leaves
reduced (R79), `IDX`, which it leaves at `len`, and `SEGEND`, and nothing else; it draws no free value. -/
theorem accumulate_frame {len : Nat} {s : State} (hlen : len ≤ s.cap.val) :
    ∃ a b, a.toNat ≤ 254 ∧ b.toNat ≤ 254 ∧
      accumulate len s = .ok (((s.setSegend (if 0 < len then BitVec.ofNat 32 len else s.segend)).setIdx
        (BitVec.ofNat 32 len)).setSums a b) := by
  obtain ⟨hn, hn'⟩ := segmentCount_bounds len
  obtain ⟨a, b, e, ha, hb, he, heq⟩ := accumulateSegments_frame (segmentCount len) (s := (clearSums s).setIdx 0)
    (by simpa [clearSums] using hlen) (by simp) (by simp [clearSums]) (by simp [clearSums]) (by simpa using hn)
    (by simpa using hn')
  refine ⟨a, b, ha, hb, ?_⟩
  rw [accumulate, heq, he]
  rfl

end Sys2Proof.Machine
end

