-- ==== Sys2Proof/Laws/Decode.lean ====
section
/-! SUPPORT. The small lemmas of the decoder: the fields of an AOP word, and the words no command has. -/

namespace Sys2Proof

theorem aopField_aopWord (aop : BitVec 2) (b : Octet) : aopField (aopWord aop b) = aop := by
  revert b; revert aop; decide +kernel

theorem aopOctet_aopWord (aop : BitVec 2) (b : Octet) : aopOctet (aopWord aop b) = b := by
  revert b; revert aop; decide +kernel

/-- A word that is neither command is rejected, by name (R52). -/
theorem decodeCmd_illegal {w : Word} (h1 : w ≠ encodeCommand) (h2 : w ≠ verifyCommand) :
    decodeCmd w = .error (.illegalCommand w) := by
  rw [decodeCmd, if_neg h1, if_neg h2]

/-- What a command word can decode to. -/
theorem decodeCmd_cases (w : Word) :
    (w = encodeCommand ∧ decodeCmd w = .ok .encode) ∨ (w = verifyCommand ∧ decodeCmd w = .ok .verify) ∨
      (w ≠ encodeCommand ∧ w ≠ verifyCommand ∧ decodeCmd w = .error (.illegalCommand w)) := by
  by_cases h1 : w = encodeCommand
  · exact .inl ⟨h1, by rw [decodeCmd, if_pos h1]⟩
  · by_cases h2 : w = verifyCommand
    · exact .inr (.inl ⟨h2, by rw [decodeCmd, if_neg h1, if_pos h2]⟩)
    · exact .inr (.inr ⟨h1, h2, decodeCmd_illegal h1 h2⟩)

end Sys2Proof
end

