-- ==== Sys2Proof/Laws/Inverter.lean ====
section
/-! SUPPORT. What the inverter's formulas and micro-operations do. -/

namespace Sys2Proof.Machine

theorem iqOf_eq (len k c0 c1 : Int) : iqOf len k c0 c1 =
    if ((len - k) * c0 - c1) % 255 ≤ 0 then ((len - k) * c0 - c1) % 255 + 255 else ((len - k) * c0 - c1) % 255 := rfl

theorem irOf_eq (c0 iq : Int) : irOf c0 iq =
    if 510 - c0 - iq > 255 then 510 - c0 - iq - 255 else 510 - c0 - iq := rfl

/-- The adjusted `iq` lies between 1 and 255, on all integers. -/
theorem iqOf_range (len k c0 c1 : Int) : 1 ≤ iqOf len k c0 c1 ∧ iqOf len k c0 c1 ≤ 255 := by
  rw [iqOf_eq]
  generalize (len - k) * c0 - c1 = x
  split <;> omega

/-- `iq` is congruent to `(len - k) * c0 - c1` modulo 255. -/
theorem iqOf_mod (len k c0 c1 : Int) : iqOf len k c0 c1 % 255 = ((len - k) * c0 - c1) % 255 := by
  rw [iqOf_eq]
  generalize (len - k) * c0 - c1 = x
  split <;> omega

/-- The adjusted `ir` lies between 1 and 255 where `c0` is a reduced sum and `iq` an adjusted octet. -/
theorem irOf_range {c0 iq : Int} (h0 : 0 ≤ c0) (h1 : c0 ≤ 254) (h2 : 1 ≤ iq) (h3 : iq ≤ 255) :
    1 ≤ irOf c0 iq ∧ irOf c0 iq ≤ 255 := by
  rw [irOf_eq]
  split <;> omega

/-- `ir` is congruent to `-c0 - iq` modulo 255. -/
theorem irOf_mod (c0 iq : Int) : irOf c0 iq % 255 = (-c0 - iq) % 255 := by
  rw [irOf_eq]
  split <;> omega

theorem toNat_ofInt_octet {v : Int} (h0 : 0 ≤ v) (h1 : v ≤ 255) : ((BitVec.ofInt 8 v).toNat : Int) = v := by
  rw [BitVec.toNat_ofInt]
  omega

/-- I.INV on a reduced `C0`: both formulas fit their registers, and no free value is drawn. -/
theorem invert_fits {s : State} (len k : Int) (h : s.c0.toNat ≤ 254) :
    invert len k s = s.setOctets (BitVec.ofInt 8 (iqOf len k s.c0.toNat s.c1.toNat))
      (BitVec.ofInt 8 (irOf s.c0.toNat (iqOf len k s.c0.toNat s.c1.toNat))) := by
  have hq := iqOf_range len k s.c0.toNat s.c1.toNat
  have hr := irOf_range (c0 := s.c0.toNat) (by omega) (by omega) hq.1 hq.2
  have fq : 0 ≤ iqOf len k s.c0.toNat s.c1.toNat ∧ iqOf len k s.c0.toNat s.c1.toNat ≤ 255 := by omega
  have fr : 0 ≤ irOf s.c0.toNat (iqOf len k s.c0.toNat s.c1.toNat) ∧
      irOf s.c0.toNat (iqOf len k s.c0.toNat s.c1.toNat) ≤ 255 := by omega
  simp only [invert, latchOctet_fits fq, latchOctetDraws_fits fq, latchOctet_fits fr, latchOctetDraws_fits fr]
  rfl

/-- Whatever the sums, I.INV changes `IQ`, `IR` and the count of free values, and nothing else. -/
theorem invert_frame (len k : Int) (s : State) :
    invert len k s = (s.setOctets (invert len k s).iq (invert len k s).ir).setFreeCount (invert len k s).freeCount :=
  rfl

end Sys2Proof.Machine
end

