-- ==== Sys2Proof/Laws/Engine.lean ====
section
/-! SUPPORT. What the parts of ENCODE and VERIFY do: the field's stores, the combined value, the bodies. -/

namespace Sys2Proof.Machine

/-- The combined value of reduced sums packs them without overlap (R60). -/
theorem combinedValue_toNat {s : State} (h0 : s.c0.toNat ≤ 254) (h1 : s.c1.toNat ≤ 254) :
    (combinedValue s).toNat = s.c1.toNat * 256 + s.c0.toNat := by
  simp only [combinedValue, BitVec.toNat_or, BitVec.toNat_shiftLeft]
  rw [Nat.mod_eq_of_lt (by rw [Nat.shiftLeft_eq]; omega), Nat.shiftLeft_eq, Nat.mul_comm,
    ← Nat.two_pow_add_eq_or_of_lt (i := 8) (by omega)]

theorem valid_iff (s : State) : valid s = true ↔ s.c0 = 0 ∧ s.c1 = 0 := by
  simp [valid]

/-- What VERIFY reports (R59). -/
theorem verdictWord_eq (s : State) : verdictWord s = if s.c0 = 0 ∧ s.c1 = 0 then 1 else 0 := by
  by_cases h : s.c0 = 0 ∧ s.c1 = 0
  · rw [if_pos h, verdictWord, if_pos ((valid_iff s).2 h)]
  · rw [if_neg h, verdictWord, if_neg fun hv => h ((valid_iff s).1 hv)]

/-- The indices of the field of a legal `k > 0`: adjacent, and inside the processed octets (R33). -/
theorem field_indices {len k : Int} (h0 : 0 < k) (h1 : k ≤ len - 1) :
    fieldSecond k = fieldFirst k + 1 ∧ fieldSecond k < len.toNat ∧ (fieldFirst k : Int) = k - 1 := by
  simp only [fieldSecond, fieldFirst]
  omega

/-- The two stores inside the buffer change the buffer alone. -/
theorem storeField_eq {s : State} {k : Int} (h0 : fieldFirst k < s.cap.val) (h1 : fieldSecond k < s.cap.val)
    (a b : Octet) : storeField k a b s =
      .ok (s.setBuf (Memory.write (Memory.write s.buf (fieldFirst k) a) (fieldSecond k) b)) := by
  simp only [storeField, memWrite_inside h0]
  rw [memWrite_inside (by simpa using h1)]
  rfl

/-- What the buffer holds after the two stores. -/
theorem storeField_read {m : List Host.Cell} (h : Memory.wf m) {p q : Nat} (hpq : q ≠ p) (a b : Octet) (i : Nat) :
    Memory.read (Memory.write (Memory.write m p a) q b) i =
      if i = p then a else if i = q then b else Memory.read m i := by
  rw [Memory.read_write (Memory.wf_write h p a), Memory.read_write h]
  split_ifs <;> simp_all

/-- The argument check passed: the operation is its body. -/
theorem checked_legal {body : Int → Int → State → Except Fault State} {s : State}
    (h : LegalArgs s.cap.val s.len.toInt s.k.toInt) :
    checked body s = settle (body s.len.toInt s.k.toInt s) := by
  simp only [checked, operandLen, operandK, checkArgs_none.2 h]

/-- The argument check failed: the operation raises the first violation. -/
theorem checked_violation {body : Int → Int → State → Except Fault State} {s : State} {c : Cause}
    (h : checkArgs s.cap.val s.len.toInt s.k.toInt = some c) :
    checked body s = .next (raise (.invalidArgument c) s) := by
  simp only [checked, operandLen, operandK, h]

/-- The body of ENCODE with `k > 0`, from what ACCUMULATE leaves over the buffer with the field zeroed. -/
theorem encodeBody_field {s u : State} {len k : Int} (hk : 0 < k)
    (h0 : fieldFirst k < s.cap.val) (h1 : fieldSecond k < s.cap.val)
    (hacc : accumulate len.toNat
      (s.setBuf (Memory.write (Memory.write s.buf (fieldFirst k) 0) (fieldSecond k) 0)) = .ok u)
    (hcap : u.cap = s.cap) :
    encodeBody len k s = .ok (complete (combinedValue u) ((invert len k u).setBuf
      (Memory.write (Memory.write u.buf (fieldFirst k) (invert len k u).iq) (fieldSecond k) (invert len k u).ir))) := by
  have hc : (invert len k u).cap = s.cap := hcap
  have hb : (invert len k u).buf = u.buf := rfl
  simp only [encodeBody, prepareField, if_pos hk, storeField_eq h0 h1, hacc, insertOctets]
  rw [storeField_eq (by rw [hc]; exact h0) (by rw [hc]; exact h1), hb]

/-- The body of ENCODE with `k = 0`, from what ACCUMULATE leaves over the buffer as it stands. -/
theorem encodeBody_sum {s u : State} {len : Int} (hacc : accumulate len.toNat s = .ok u) :
    encodeBody len 0 s = .ok (complete (combinedValue u) u) := by
  simp only [encodeBody, prepareField, lt_irrefl, if_false, hacc, insertOctets]

/-- The body of VERIFY, from what ACCUMULATE leaves. -/
theorem verifyBody_eq {s u : State} {len : Int} (hacc : accumulate len.toNat s = .ok u) :
    verifyBody len s = .ok (complete (verdictWord u) u) := by
  simp only [verifyBody, hacc]

end Sys2Proof.Machine
end

