-- ==== Sys2Proof/Laws/PerInstr.lean ====
section
/-! SUPPORT. The family TableRow: the word of each instruction against its row of spec/opcode_table.json. -/

namespace Sys2Proof.Laws.TableRow

open Sys2Proof

/-- The width of the row's word in whole bytes, its match and its mask, as spec/opcode_table.json gives them. -/
def row : Instr → Nat × Nat × Nat
  | .encode => (32, 0x00000001, 0xFFFFFFFF)
  | .verify => (32, 0x00000002, 0xFFFFFFFF)
  | .aHold => (16, 0x000, 0x300)
  | .aClr => (16, 0x100, 0x300)
  | .aAbs _ => (16, 0x200, 0x300)
  | .aRed => (16, 0x300, 0x300)
  | .iHold => (8, 0x0, 0x1)
  | .iInv => (8, 0x1, 0x1)

/-- The bits of a control word. -/
def bits : ControlWord → Nat
  | .cmd w => w.toNat
  | .aop w => w.toNat
  | .ien w => w.toNat

/-- The word of an instruction has its row's format, and under the row's mask it is the row's match; and the same bits
read as a word of that row give the instruction back. -/
def Statement (i : Instr) : Prop :=
  tableControlWord (row i).1 (bits (encode i)) = some (encode i) ∧
  bits (encode i) &&& (row i).2.2 = (row i).2.1 ∧
  decodeTableWord (row i).1 (bits (encode i)) = some i

theorem encode : Statement .encode := by refine ⟨?_, ?_, ?_⟩ <;> decide
theorem verify : Statement .verify := by refine ⟨?_, ?_, ?_⟩ <;> decide
theorem aHold : Statement .aHold := by refine ⟨?_, ?_, ?_⟩ <;> decide
theorem aClr : Statement .aClr := by refine ⟨?_, ?_, ?_⟩ <;> decide
theorem aAbs (b : Octet) : Statement (.aAbs b) := by
  refine ⟨?_, ?_, ?_⟩ <;> revert b <;> decide +kernel
theorem aRed : Statement .aRed := by refine ⟨?_, ?_, ?_⟩ <;> decide
theorem iHold : Statement .iHold := by refine ⟨?_, ?_, ?_⟩ <;> decide
theorem iInv : Statement .iInv := by refine ⟨?_, ?_, ?_⟩ <;> decide

end Sys2Proof.Laws.TableRow
end

