-- ==== Sys2Proof/Laws/Ports.lean ====
section
/-! SUPPORT. What a step does with its input, said once: which input it takes, what running a control word is, and what a host access is. -/

namespace Sys2Proof.Machine

/-- With an input pending, the step is what the machine does with it, on the state it leaves pending. -/
theorem step_of_pending {s : State} {inp : Input} {rest : List Input} (h : s.pending = inp :: rest) :
    step s = takeInput inp (s.setPending rest) := by
  simp [step, h]

theorem runControlWord_ok {cw : ControlWord} {i : Instr} (h : decode cw = .ok i) (s : State) :
    runControlWord cw s = exec i s := by
  simp [runControlWord, h]

theorem runControlWord_error {cw : ControlWord} {e : DecodeError} (h : decode cw = .error e) (s : State) :
    runControlWord cw s = .next (raise .illegalCommand s) := by
  simp [runControlWord, h]

theorem readHostBuf_inside {s : State} {i : Nat} (h : i < s.cap.val) :
    readHostBuf i s = .next (s.deliver ((Memory.read s.buf i).setWidth 32)) := by
  simp [readHostBuf, memRead_inside h]

theorem readHostBuf_outside {s : State} {i : Nat} (h : s.cap.val ≤ i) :
    readHostBuf i s = .fault .outsideBuffer := by
  simp [readHostBuf, memRead_outside h]

/-- Everything taking an input can do: a write of `LEN` or `K`, an ignored write, a run of a control word, a value
delivered, an octet written inside the buffer, the reset event, or the stop outside the buffer. -/
theorem takeInput_cases (inp : Input) (s : State) :
    (∃ w, takeInput inp s = .next (s.setLen w)) ∨ (∃ w, takeInput inp s = .next (s.setK w)) ∨
    takeInput inp s = .next s ∨ (∃ cw, takeInput inp s = runControlWord cw s) ∨
    (∃ w, takeInput inp s = .next (s.deliver w)) ∨
    (∃ i b, i < s.cap.val ∧ takeInput inp s = .next (s.setBuf (Memory.write s.buf i b))) ∨
    takeInput inp s = .next (resetEvent s) ∨ takeInput inp s = .fault .outsideBuffer := by
  cases inp with
  | writeReg r w =>
    cases r with
    | len => exact .inl ⟨w, rfl⟩
    | k => exact .inr (.inl ⟨w, rfl⟩)
    | cmd => exact .inr (.inr (.inr (.inl ⟨.cmd w, rfl⟩)))
    | status => exact .inr (.inr (.inl rfl))
    | result => exact .inr (.inr (.inl rfl))
  | readReg r => exact .inr (.inr (.inr (.inr (.inl ⟨_, rfl⟩))))
  | writeBuf i b =>
    by_cases h : i < s.cap.val
    · refine .inr (.inr (.inr (.inr (.inr (.inl ⟨i, b, h, ?_⟩)))))
      rw [takeInput, memWrite_inside h]; rfl
    · refine .inr (.inr (.inr (.inr (.inr (.inr (.inr ?_))))))
      rw [takeInput, memWrite_outside (Nat.le_of_not_lt h)]; rfl
  | readBuf i =>
    by_cases h : i < s.cap.val
    · exact .inr (.inr (.inr (.inr (.inl ⟨_, readHostBuf_inside h⟩))))
    · exact .inr (.inr (.inr (.inr (.inr (.inr (.inr (readHostBuf_outside (Nat.le_of_not_lt h))))))))
  | reset => exact .inr (.inr (.inr (.inr (.inr (.inr (.inl rfl))))))
  | aop w => exact .inr (.inr (.inr (.inl ⟨.aop w, rfl⟩)))
  | ien w => exact .inr (.inr (.inr (.inl ⟨.ien w, rfl⟩)))

/-- The memory of the state after reset is in canonical form. -/
theorem State.reset_buf_wf : Memory.wf State.reset.buf := ⟨List.Pairwise.nil, fun _ h => nomatch h⟩

end Sys2Proof.Machine
end

