-- ==== Sys2Proof/Laws/Sequencer.lean ====
section
/-! SUPPORT. The small steps: what a run of ticks is, and what each kind of line does. -/

namespace Sys2Proof.Machine

theorem inserts_iff (word : Word) (s : State) :
    inserts word s = true ↔ word = encodeCommand ∧ 0 < operandK s := by
  simp only [inserts, Bool.and_eq_true, beq_iff_eq, decide_eq_true_eq]

/-- A run of ticks is the run of its parts. -/
theorem ticks_add (m n : Nat) (q : Sequencer) : ticks (m + n) q = andThen (ticks m q) (ticks n) := by
  induction m generalizing q with
  | zero => rw [Nat.zero_add]; rfl
  | succ m ih =>
    rw [show m + 1 + n = (m + n) + 1 by omega]
    simp only [ticks]
    cases tick q with
    | next q' => exact ih q'
    | fault r => rfl
    | refused r => rfl

/-- An A.ABS word at the accumulator absorbs its octet. -/
theorem runControlWord_abs (b : Octet) (s : State) :
    runControlWord (.aop (aopWord 0b10 b)) s = .next (absorb b s) := by
  simp only [runControlWord, decode, decodeAop, aopField_aopWord, aopOctet_aopWord]
  rfl

/-- A line that gives A.HOLD and I.HOLD is the engine's own part of it. -/
theorem tick_hold {p p' : Phase} {w : Word} {s s' : State} (h0 : p ≠ .done) (h6 : p ≠ .s6)
    (ha : aopGiven p s = .ok (aopWord 0b00 0)) (he : engineAct p w s = .ok (s', p')) (g : List (AopWord × IenWord)) :
    tick ⟨p, w, s, g⟩ = .next ⟨p', w, s', (aopWord 0b00 0, 0) :: g⟩ := by
  have hA : runControlWord (.aop (aopWord 0b00 0)) s = .next s := rfl
  have hI : runControlWord (.ien 0) s = .next s := rfl
  simp only [tick, if_neg h0, ha, settle_ok, andThen_next, hA, ienGiven, if_neg h6, hI, he]

/-- The S5b line absorbs the octet at `IDX` and advances. -/
theorem tick_s5b {w : Word} {s : State} {b : Octet} (h : memRead s s.idx.toNat = .ok b) (g : List (AopWord × IenWord)) :
    tick ⟨.s5b, w, s, g⟩ = .next
      ⟨if (advanceIdx (absorb b s)).idx.toNat < (advanceIdx (absorb b s)).segend.toNat then .s5b else .s5c, w,
        advanceIdx (absorb b s), (aopWord 0b10 b, 0) :: g⟩ := by
  simp only [tick, aopGiven, h, settle_ok, andThen_next, runControlWord_abs, ienGiven, engineAct]
  rfl

end Sys2Proof.Machine
end

