-- ==== Sys2Proof/Tests/Slice0.lean ====
section
/-! SUPPORT. The model's own tests, with values of the spec's tables, and for each statement with hypotheses a state that meets them. -/

namespace Sys2Proof.Tests

open Sys2Proof Sys2Proof.Machine

/-! ### Helpers -/

/-- The canonical list of a buffer written out from an index on. -/
def cells : Nat → List Octet → List Host.Cell
  | _, [] => []
  | i, b :: bs => if b = 0 then cells (i + 1) bs else (i, b) :: cells (i + 1) bs

/-- A state whose buffer is exactly these octets, with operands. -/
def sample (octets : List Octet) (len k : Word) : State :=
  { State.reset with cap := Fin.ofNat Config.capLimit octets.length, buf := cells 0 octets, len := len, k := k }

/-- A state with these sums. -/
def sums (a b : Word) : State := { State.reset with c0 := a, c1 := b }

def nextOf {α : Type} : Host.Outcome α Fault Refusal → Option α
  | .next t => some t
  | .fault _ => none
  | .refused _ => none

def stopOf {α : Type} : Host.Outcome α Fault Refusal → Option Fault
  | .next _ => none
  | .fault f => some f
  | .refused _ => none

/-- STATUS, RESULT and the first octets of the buffer after an outcome. -/
def seen (n : Nat) (o : Host.Outcome State Fault Refusal) : Option (Word × Word × List Octet) :=
  (nextOf o).map fun t => (t.status, t.result, (List.range n).map (Memory.read t.buf))

/-- The sums after an outcome. -/
def sumsOf (o : Host.Outcome State Fault Refusal) : Option (Word × Word) := (nextOf o).map fun t => (t.c0, t.c1)

/-- The inverter's octets after an outcome. -/
def octetsOf (o : Host.Outcome State Fault Refusal) : Option (Octet × Octet) := (nextOf o).map fun t => (t.iq, t.ir)

/-- STATUS after an outcome. -/
def statusAfter (o : Host.Outcome State Fault Refusal) : Option Word := (nextOf o).map State.status

/-- The example input of 95_test_vectors.md 1.1, with garbage in the field. -/
def example10 : List Octet := [0x01, 0x02, 0xDE, 0xAD, 0x05, 0x06, 0x07, 0x08, 0x09, 0x0A]

/-- The example encoded (95_test_vectors.md 1.1). -/
def encoded10 : List Octet := [0x01, 0x02, 0xA8, 0x27, 0x05, 0x06, 0x07, 0x08, 0x09, 0x0A]

/-! ### Decoding: words written out from 30_encoding.md -/

/-- R51: the two command words. -/
theorem test_decode_commands :
    decode (.cmd 0b00000000000000000000000000000001) = .ok .encode ∧
    decode (.cmd 0b00000000000000000000000000000010) = .ok .verify := by decide

/-- R52: the illegal words of 95_test_vectors.md 2.7 are refused by name. -/
theorem test_decode_illegal_commands :
    let words : List Word := [0x00000000, 0x00000003, 0x00000004, 0x00000101, 0x80000001, 0xFFFFFFFF]
    words.map (fun w => decode (.cmd w)) = words.map (fun w => .error (.illegalCommand w)) := by decide

/-- R61: field `aop` is bits 9:8, field `b` bits 7:0. -/
theorem test_decode_accumulator :
    decode (.aop 0b0000000000) = .ok .aHold ∧ decode (.aop 0b0010100111) = .ok .aHold ∧
    decode (.aop 0b0100000000) = .ok .aClr ∧ decode (.aop 0b1010101000) = .ok (.aAbs 0b10101000) ∧
    decode (.aop 0b1100000001) = .ok .aRed := by decide

/-- R62. -/
theorem test_decode_inverter : decode (.ien 0b0) = .ok .iHold ∧ decode (.ien 0b1) = .ok .iInv := by decide

/-- A row's word with a bit its format does not have is no instruction; a row's width in whole bytes is accepted. -/
theorem test_decode_table_words :
    decodeTableWord 32 0x00000001 = some .encode ∧ decodeTableWord 10 0x2A8 = some (.aAbs 0xA8) ∧
    decodeTableWord 16 0x2A8 = some (.aAbs 0xA8) ∧ decodeTableWord 16 0x400 = none ∧
    decodeTableWord 8 0x1 = some .iInv ∧ decodeTableWord 8 0x2 = none ∧ decodeTableWord 32 0x3 = none ∧
    decodeTableWord 24 0x1 = none := by decide

/-! ### Well-formedness: an ill-formed term for each check -/

theorem test_wellFormed_refuses_index :
    Input.wellFormed 4 (.writeBuf 4 0) = false ∧ Input.wellFormed 4 (.readBuf 4) = false ∧
    Input.wellFormed 0 (.readBuf 0) = false ∧ Input.wellFormed 4 (.writeBuf 3 0) = true ∧
    Input.wellFormed 4 (.readBuf 3) = true := by decide

theorem test_wellFormed_refuses_operand :
    HostOp.wellFormed (.encode 2147483648 0) = false ∧ HostOp.wellFormed (.encode 0 (-2147483649)) = false ∧
    HostOp.wellFormed (.verify (-2147483649) 0) = false ∧ HostOp.wellFormed (.verify 0 2147483648) = false ∧
    HostOp.wellFormed (.sum 2147483648) = false ∧ HostOp.wellFormed (.encode 2147483647 (-2147483648)) = true := by
  decide

/-! ### The accumulator (95_test_vectors.md 2.1) -/

theorem test_aHold : sumsOf (step ((sums 48 168).withFetchWord 16 0x0A7)) = some (48, 168) := by decide

theorem test_aClr : sumsOf (exec .aClr (sums 171 175)) = some (0, 0) := by decide

theorem test_aAbs_uses_the_new_sum : sumsOf (exec (.aAbs 0xA8) (sums 3 4)) = some (171, 175) := by decide

theorem test_aAbs_large :
    sumsOf (exec (.aAbs 0xFF) (sums 1046009 2144843505)) = some (1046264, 2145889769) := by decide

theorem test_aRed_multiples : sumsOf (exec .aRed (sums 255 1785)) = some (0, 0) := by decide

theorem test_aRed_largest : sumsOf (exec .aRed (sums 1046264 2146931677)) = some (254, 232) := by decide +kernel

/-! ### The inverter (41_checksum_inverter.md section 6) -/

theorem test_iHold : octetsOf (exec .iHold { sums 1 2 with iq := 168, ir := 39 }) = some (168, 39) := by decide

theorem test_iInv_example :
    octetsOf (exec .iInv { sums 48 168 with len := 10, k := 3 }) = some (168, 39) := by decide

/-- The rows at the thresholds: `x = 0` with `ir` kept at 255, `ir` of 256, the most negative `x`, the largest product. -/
theorem test_iInv_thresholds :
    octetsOf (exec .iInv { sums 0 0 with len := 10, k := 3 }) = some (255, 255) ∧
    octetsOf (exec .iInv { sums 0 1 with len := 10, k := 3 }) = some (254, 1) ∧
    octetsOf (exec .iInv { sums 0 254 with len := 10, k := 3 }) = some (1, 254) ∧
    octetsOf (exec .iInv { sums 254 0 with len := 2147483647, k := 1 }) = some (129, 127) := by decide

/-! ### ENCODE, VERIFY and the exceptions (95_test_vectors.md 2.5 to 2.7) -/

theorem test_encode_example :
    seen 10 (exec .encode (sample example10 10 3)) = some (0, 0x0000A830, encoded10) := by decide +kernel

theorem test_encode_threshold :
    seen 4 (exec .encode (sample [0x01, 0x00, 0x00, 0x02] 4 2)) = some (0, 0x00000603, [0x01, 0xFF, 0xFC, 0x02]) := by
  decide +kernel

theorem test_verify_valid :
    seen 10 (exec .verify (sample encoded10 10 3)) = some (0, 0x00000001, encoded10) := by decide +kernel

theorem test_verify_swapped_field :
    (nextOf (exec .verify (sample [0x01, 0x02, 0x27, 0xA8, 0x05, 0x06, 0x07, 0x08, 0x09, 0x0A] 10 0))).map
      (fun t => (t.status, t.result, t.c0, t.c1)) = some (0, 0, 0, 126) := by decide +kernel

/-- The rows of 2.7 with `CAP = 16`, one for each cause, for both operations. -/
theorem test_invalid_argument :
    let rows : List (Word × Word) := [(0x80000000, 0xFFFFFFFF), (0x00000011, 0xFFFFFFFF), (0x00000005, 0x80000000),
      (0x00000000, 0x00000001), (0x00000010, 0x00000010), (0x00000010, 0x0000000F)]
    let after := fun i => rows.map fun r => statusAfter (exec i (sample (List.replicate 16 1) r.1 r.2))
    after .encode = [some 0x11, some 0x21, some 0x31, some 0x41, some 0x51, some 0x00] ∧
    after .verify = [some 0x11, some 0x21, some 0x31, some 0x41, some 0x51, some 0x00] := by decide +kernel

/-- R144: an illegal word with illegal operands is IllegalCommand, and nothing of the buffer is touched. -/
theorem test_illegal_command :
    (nextOf (step ({ sample example10 0xFFFFFFFF 3 with pending := [.writeReg .cmd 0x00000101] }))).map
      (fun t => (t.status, t.len, t.buf)) = some (0x00000002, 0xFFFFFFFF, (sample example10 0 0).buf) := by decide

/-! ### The step and the host's accesses -/

/-- The word of a row placed as the first instruction after reset is run: SUM 0 (R172). -/
theorem test_first_command :
    seen 1 (step (State.reset.withFetchWord 32 0x00000001)) = some (0, 0, [0]) := by decide

theorem test_host_access_outside :
    stopOf (step { sample [1, 2] 0 0 with pending := [.readBuf 2] }) = some .outsideBuffer ∧
    stopOf (step { sample [1, 2] 0 0 with pending := [.writeBuf 2 7] }) = some .outsideBuffer := by decide

theorem test_host_read_of_command_port :
    (nextOf (step { sample [1, 2] 5 0 with pending := [.readReg .cmd] })).map State.reads = some [0] := by decide

/-- The five numbers of R11, both ways. -/
theorem test_register_numbers :
    [HostReg.len, .k, .cmd, .status, .result].map hostRegNumber = [0, 1, 2, 3, 4] ∧
    (List.range 6).map hostRegOfNumber = [some .len, some .k, some .cmd, some .status, some .result, none] := by decide

/-- The six words of R55 that are not OK, and their fields. -/
theorem test_exception_words :
    [Exception.illegalCommand, .invalidArgument .lenNegative, .invalidArgument .lenExceedsCap,
      .invalidArgument .kNegative, .invalidArgument .kExceedsLen, .invalidArgument .kNoRoom].map exceptionStatus =
      [0x00000002, 0x00000011, 0x00000021, 0x00000031, 0x00000041, 0x00000051] ∧
    statusCode 0x00000051 = 1 ∧ statusCause 0x00000051 = 5 ∧ statusCode 0x00000002 = 2 ∧ statusCause 0x00000002 = 0 := by
  decide

/-- The first line of R116 gives both blocks their hold word (program P1, step S0). -/
theorem test_small_step :
    (nextOf (tick (startOperation 0x00000001 (sample example10 10 3)))).map (fun q => (q.phase, q.given)) =
      some (.s1, [(0x000, 0)]) := by decide

/-! ### Witnesses: a concrete state and operands for the hypotheses of each statement that has some -/

theorem test_witness_DecodeEncodeRoundTrip :
    (Instr.aAbs 0xFF).wellFormed = true ∧ decode (.aop 0x3FF) = .ok .aRed ∧ decode (.aop 0x2FF) = .ok (.aAbs 0xFF) := by
  decide

theorem test_witness_StepRunsDecodedInstruction :
    ({ State.reset with pending := [inputOfControlWord (.aop 0x3FF)] } : State).pending =
      inputOfControlWord (.aop 0x3FF) :: [] ∧ decode (.aop 0x3FF) = .ok .aRed ∧ Instr.aRed.wellFormed = true ∧
    decodeTableWord 16 0x3FF = some .aRed := by decide

theorem test_witness_IdleStepChangesNothing : State.reset.pending = [] := by decide

theorem test_witness_HostRegisterWrites :
    ∀ r ∈ [HostReg.len, .k, .cmd, .status, .result],
      ({ State.reset with pending := [.writeReg r 0x80000000, .reset] } : State).pending =
        .writeReg r 0x80000000 :: [.reset] := by decide

theorem test_witness_HostRegisterReads :
    ({ sample [1] 7 9 with pending := [.readReg .k] } : State).pending = .readReg .k :: [] := by decide

/-- The highest index that exists. -/
theorem test_witness_BufferReadAfterWrite :
    Memory.wf (sample encoded10 10 3).buf ∧ 9 < (sample encoded10 10 3).cap.val := by decide

theorem test_witness_HostBufferAccess :
    ∀ j ∈ [0, 9], ({ sample encoded10 10 3 with pending := [.writeBuf 9 0, .readBuf j] } : State).wf ∧
      9 < (sample encoded10 10 3).cap.val ∧ j < (sample encoded10 10 3).cap.val ∧
      ({ sample encoded10 10 3 with pending := [.writeBuf 9 0, .readBuf j] } : State).pending =
        .writeBuf 9 0 :: .readBuf j :: [] := by decide

theorem test_witness_HostOperationRunsItsCommand :
    (HostOp.encode 2147483647 (-2147483648)).wellFormed = true ∧
    ({ State.reset with pending := expandHostOp (.encode 2147483647 (-2147483648)) } : State).pending =
      expandHostOp (.encode 2147483647 (-2147483648)) ++ [] ∧
    ({ State.reset with pending := expandHostOp (.verify 2147483647 (-2147483648)) } : State).pending =
      expandHostOp (.verify 2147483647 (-2147483648)) ++ [] := by decide

theorem test_witness_ResetLeavesHostRegistersZero :
    ({ sample [1] 7 9 with pending := [.reset] } : State).pending = .reset :: [] := by decide

theorem test_witness_IllegalCommandTakesException :
    (0x00000000 : Word) ≠ 0x00000001 ∧ (0x00000000 : Word) ≠ 0x00000002 ∧
    (0x00000003 : Word) ≠ 0x00000001 ∧ (0x00000003 : Word) ≠ 0x00000002 := by decide

/-- The word of InvalidArgumentTakesException's premise. -/
def causeWord (s : State) : Word :=
  if s.len.toInt < 0 then 0x00000011
  else if (s.cap.val : Int) < s.len.toInt then 0x00000021
  else if s.k.toInt < 0 then 0x00000031
  else if s.len.toInt < s.k.toInt then 0x00000041
  else if 0 < s.k.toInt ∧ s.k.toInt = s.len.toInt then 0x00000051
  else 0x00000000

/-- One state for each clause of the check, at its boundary, and two with legal arguments. -/
theorem test_witness_InvalidArgumentTakesException :
    0x00000011 = causeWord (sample [1, 2] 0xFFFFFFFF 0xFFFFFFFF) ∧ 0x00000021 = causeWord (sample [1, 2] 3 0xFFFFFFFF) ∧
    0x00000031 = causeWord (sample [1, 2] 2 0xFFFFFFFF) ∧ 0x00000041 = causeWord (sample [1, 2] 2 3) ∧
    0x00000051 = causeWord (sample [1, 2] 2 2) ∧ 0x00000000 = causeWord (sample [1, 2] 2 1) ∧
    0x00000000 = causeWord (sample [1, 2] 0 0) := by decide

/-- The premise on the arguments that many statements have. -/
abbrev legal (s : State) : Prop := LegalArgs s.cap.val s.len.toInt s.k.toInt

/-- LegalArgumentsRaiseNothing, VerifyAccumulatesAndReportsValid, EncodeResultMatchesReference,
VerifyResultMatchesReference, VerifyIsRepeatable, EncodeIsIdempotent: `k = 0`, `k = len - 1` with `len = CAP`, `len = 0`. -/
theorem test_witness_legal_arguments :
    (sample encoded10 10 0).wf ∧ legal (sample encoded10 10 0) ∧ (sample encoded10 10 9).wf ∧
    legal (sample encoded10 10 9) ∧ (sample encoded10 0 0).wf ∧ legal (sample encoded10 0 0) := by decide

/-- EncodeZeroesAccumulatesInserts, StoredOctetsAreNeverZero, EncodedBufferVerifies: `k = 1` and `k = len - 1`, with `len = CAP`. -/
theorem test_witness_encode_with_field :
    (sample encoded10 10 1).wf ∧ legal (sample encoded10 10 1) ∧ 0 < (sample encoded10 10 1).k.toInt ∧
    (sample encoded10 10 9).wf ∧ legal (sample encoded10 10 9) ∧ 0 < (sample encoded10 10 9).k.toInt := by decide

/-- The premises of both clauses: an access outside, and none. -/
theorem test_witness_StepStopsOnlyOutsideBuffer :
    (∃ i rest, (sample [1, 2] 0 0).cap.val ≤ i ∧
      ((∃ b, ({ sample [1, 2] 0 0 with pending := [.writeBuf 2 5] } : State).pending = .writeBuf i b :: rest) ∨
        ({ sample [1, 2] 0 0 with pending := [.writeBuf 2 5] } : State).pending = .readBuf i :: rest)) ∧
    ¬ (∃ i rest, (sample [1, 2] 0 0).cap.val ≤ i ∧
      ((∃ b, ({ sample [1, 2] 0 0 with pending := [.writeBuf 1 5] } : State).pending = .writeBuf i b :: rest) ∨
        ({ sample [1, 2] 0 0 with pending := [.writeBuf 1 5] } : State).pending = .readBuf i :: rest)) := by
  refine ⟨⟨2, [], by decide, .inl ⟨5, rfl⟩⟩, ?_⟩
  rintro ⟨i, rest, h, ⟨b, e⟩ | e⟩
  · cases e; revert h; decide
  · cases e

/-- The largest sums before the last octet of the first segment; AbsorbCompletesEverywhere's inner premises as well. -/
theorem test_witness_AbsorbAddsOctetThenSum :
    (sums 1046009 2144843505).c0.toNat + (0xFF : Octet).toNat < 4294967296 ∧
    (sums 1046009 2144843505).c1.toNat + ((sums 1046009 2144843505).c0.toNat + (0xFF : Octet).toNat) < 4294967296 := by
  decide

/-- A full segment of `0xFF` octets, sums at (254, 254). -/
def fullSegment : State :=
  { sums 254 254 with cap := 4102, buf := (List.range' 0 4102).map fun i => (i, 0xFF) }

theorem read_full (n : Nat) : ∀ a i : Nat, a ≤ i → i < a + n →
    Memory.read ((List.range' a n).map fun i => (i, (0xFF : Octet))) i = 0xFF := by
  induction n with
  | zero => intro a i h1 h2; omega
  | succ n ih =>
    intro a i h1 h2
    simp only [List.range'_succ, List.map_cons, Memory.read]
    split
    · rfl
    · exact ih (a + 1) i (by omega) (by omega)

theorem test_witness_SegmentSumsStayInRegisters :
    fullSegment.c0.toNat ≤ 254 ∧ fullSegment.c1.toNat ≤ 254 ∧ fullSegment.idx.toNat + 4102 ≤ fullSegment.cap.val ∧
    fullSegment.c0 = 254 ∧ fullSegment.c1 = 254 ∧
    ∀ i, i < 4102 → octetAt fullSegment (fullSegment.idx.toNat + i) = 255 := by
  refine ⟨by decide, by decide, by decide, rfl, rfl, fun i hi => ?_⟩
  have : Memory.read fullSegment.buf (fullSegment.idx.toNat + i) = 0xFF :=
    read_full 4102 0 _ (Nat.zero_le _) (by simpa [fullSegment, sums, State.reset, Config.unspecifiedReset] using hi)
  rw [octetAt, this]; rfl

/-- AccumulateClosedForm and SegmentsAreInvisible: no octet, and the whole buffer. -/
theorem test_witness_accumulate : ∀ len ∈ [0, 10], len ≤ (sample encoded10 10 3).cap.val := by decide

/-- The rows (10, 3, 48, 168), (10, 3, 0, 0) and (10, 3, 0, 1) of 41_checksum_inverter.md section 6: `iq` kept and
raised, `ir` reduced and kept. -/
theorem test_witness_InvertLatchesBothFormulas :
    ∀ r ∈ [((48 : Word), (168 : Word), (168 : Int), (168 : Int), (39 : Int)), (0, 0, 0, 255, 255), (0, 1, -1, 254, 1)],
      let s := { sums r.1 r.2.1 with len := 10, k := 3 }
      s.c0.toNat ≤ 254 ∧ s.c1.toNat ≤ 254 ∧
      r.2.2.1 = (s.len.toInt - s.k.toInt) * s.c0.toNat - s.c1.toNat ∧
      r.2.2.2.1 = (if r.2.2.1 % 255 ≤ 0 then r.2.2.1 % 255 + 255 else r.2.2.1 % 255) ∧
      r.2.2.2.2 = (if 510 - (s.c0.toNat : Int) - r.2.2.2.1 > 255 then 510 - (s.c0.toNat : Int) - r.2.2.2.1 - 255
        else 510 - (s.c0.toNat : Int) - r.2.2.2.1) := by decide

/-- `iq` wherever it is; `ir` where it fits: the largest first sum of the precondition, and one at which it is 0. -/
theorem test_witness_InvertCompletesEverywhere :
    0 ≤ irOf 254 255 ∧ irOf 254 255 ≤ 255 ∧ 0 ≤ irOf 255 255 ∧ irOf 255 255 ≤ 255 := by decide

/-- The example's field: octets 168 and 39 at indices 2 and 3. -/
theorem test_witness_CheckOctetsUniqueModulo255 :
    let octet := fun i => if i = 2 ∨ i = 3 then 0 else (encoded10.map BitVec.toNat).getD i 0
    let filled := fun i => if i = 2 then 168 else if i = 2 + 1 then 39 else octet i
    2 + 1 < 10 ∧ octet 2 = 0 ∧ octet (2 + 1) = 0 ∧
      plainSum filled 10 % 255 = 0 ∧ weightedSum filled 10 % 255 = 0 := by decide +kernel

theorem test_witness_SumAccumulatesAndWritesNoOctet :
    (sample encoded10 10 0).k = 0 ∧ 0 ≤ (sample encoded10 10 0).len.toInt ∧
    (sample encoded10 10 0).len.toInt ≤ (sample encoded10 10 0).cap.val := by decide

/-- A buffer changed at one index, beside the buffer it came from. -/
def changed (i : Nat) (v : Octet) : State :=
  { sample encoded10 10 3 with buf := Memory.write (sample encoded10 10 3).buf i v }

theorem read_changed (i : Nat) (v : Octet) (a : Nat) (h : a ≠ i) :
    Memory.read (changed i v).buf a = Memory.read (sample encoded10 10 3).buf a :=
  Memory.read_write_other (by decide) h v

theorem test_witness_FieldContentIsIrrelevant :
    (sample encoded10 10 3).wf ∧ (changed 2 0xDE).wf ∧
    changed 2 0xDE = { sample encoded10 10 3 with buf := (changed 2 0xDE).buf } ∧
    (changed 2 0xDE).buf ≠ (sample encoded10 10 3).buf ∧
    (∀ a, a ≠ fieldFirst (sample encoded10 10 3).k.toInt → a ≠ fieldSecond (sample encoded10 10 3).k.toInt →
      Memory.read (changed 2 0xDE).buf a = Memory.read (sample encoded10 10 3).buf a) :=
  ⟨by decide, by decide, rfl, by decide, fun a h _ => read_changed 2 0xDE a h⟩

/-- StoredOctetsAreNeverZero's two inner premises: a zero remainder, and a first octet that makes `ir` 255. -/
theorem test_witness_StoredOctetsAreNeverZero :
    (nextOf (exec .encode (sample [0, 0, 0, 0] 4 2))).map (fun t =>
      (decide (((sample [0, 0, 0, 0] 4 2).len.toInt - (sample [0, 0, 0, 0] 4 2).k.toInt) * t.c0.toNat % 255 = 0 ∧
        t.c1.toNat = 0), (t.c0.toNat + octetAt t 1) % 255)) = some (true, 0) := by decide +kernel

/-- EncodedBufferVerifies's inner premise: `k' = 0` and the largest. -/
theorem test_witness_EncodedBufferVerifies :
    LegalArgs (sample encoded10 10 3).cap.val (sample encoded10 10 3).len.toInt (0 : Word).toInt ∧
    LegalArgs (sample encoded10 10 3).cap.val (sample encoded10 10 3).len.toInt (9 : Word).toInt := by decide

/-- UndetectedCorruptionExactly: a valid buffer, and one changed without notice (`0x00` to `0xFF`) or with. -/
theorem test_witness_UndetectedCorruptionExactly :
    (nextOf (exec .verify (sample encoded10 10 3))).map State.result = some 1 ∧
    changed 0 0 = { sample encoded10 10 3 with buf := (changed 0 0).buf } ∧
    (nextOf (exec .verify (changed 0 0))).map State.result = some 0 := by
  refine ⟨?_, rfl, ?_⟩ <;> decide +kernel

/-- Bit 7 of the last octet below `len` flipped. -/
theorem test_witness_SingleBitFlipIsDetected :
    (nextOf (exec .verify (sample encoded10 10 3))).map State.result = some 1 ∧
    9 < (sample encoded10 10 3).len.toInt.toNat ∧ 7 < 8 ∧
    Memory.read (changed 9 0x8A).buf 9 = Memory.read (sample encoded10 10 3).buf 9 ^^^ (1 <<< 7) ∧
    (∀ a, a ≠ 9 → Memory.read (changed 9 0x8A).buf a = Memory.read (sample encoded10 10 3).buf a) := by
  refine ⟨?_, ?_, ?_, ?_, fun a h => read_changed 9 0x8A a h⟩ <;> decide +kernel

/-- One octet of a valid buffer changed, the last one below `len`; for the second clause see the next witness. -/
theorem test_witness_OctetChange :
    9 < (sample encoded10 10 3).len.toInt.toNat ∧
    (∀ a, a ≠ 9 → Memory.read (changed 9 0).buf a = Memory.read (sample encoded10 10 3).buf a) ∧
    octetAt (changed 9 0) 9 ≠ octetAt (sample encoded10 10 3) 9 := by
  refine ⟨by decide, fun a h => read_changed 9 0 a h, by decide⟩

/-- The two last octets of a valid buffer swapped. -/
theorem test_witness_Swap :
    let u := { changed 8 0x0A with buf := Memory.write (changed 8 0x0A).buf 9 0x09 }
    8 + 1 < (sample encoded10 10 3).len.toInt.toNat ∧
    (∀ a, a ≠ 8 → a ≠ 8 + 1 → Memory.read u.buf a = Memory.read (sample encoded10 10 3).buf a) ∧
    octetAt u 8 = octetAt (sample encoded10 10 3) (8 + 1) ∧ octetAt u (8 + 1) = octetAt (sample encoded10 10 3) 8 := by
  refine ⟨by decide, fun a h h' => ?_, by decide, by decide⟩
  exact (Memory.read_write_other (by decide) h' _).trans (read_changed 8 0x0A a h)

theorem test_witness_BlindSpotsVerify :
    legal (sample [0xFF, 0, 0xFF] 3 0) ∧
    ∀ i, i < (sample [0xFF, 0, 0xFF] 3 0).len.toInt.toNat →
      octetAt (sample [0xFF, 0, 0xFF] 3 0) i = 0 ∨ octetAt (sample [0xFF, 0, 0xFF] 3 0) i = 255 := by decide

/-- A buffer of 10 octets of which `len = 9` count, changed at the first index that does not. -/
theorem test_witness_OctetsBeyondLenPlayNoPart :
    let s := { sample encoded10 10 3 with len := 9 }
    let u := { changed 9 0x55 with len := 9 }
    s.wf ∧ u.wf ∧ legal s ∧ u = { s with buf := u.buf } ∧
    AgreeBelow s.len.toInt.toNat s u ∧ octetAt u 9 ≠ octetAt s 9 := by
  refine ⟨by decide, by decide, by decide, rfl, fun i hi => ?_, by decide⟩
  have h9 : i < 9 := hi
  exact congrArg BitVec.toNat (read_changed 9 0x55 i (by omega)).symm

/-- Two states that differ in every other register. -/
theorem test_witness_OutcomeDependsOnOperandsOnly :
    let s := sample encoded10 10 3
    let u := { s with status := 0x51, result := 7, c0 := 1, c1 := 2, iq := 3, ir := 4, idx := 5, segend := 6 }
    u.len = s.len ∧ u.k = s.k ∧ u.cap = s.cap ∧ u.buf = s.buf ∧ u ≠ s := by decide

theorem test_witness_MicroOperationsStayInTheirBlock :
    ∀ i ∈ [Instr.aHold, .aClr, .aAbs 0xFF, .aRed], i = .aHold ∨ i = .aClr ∨ i = .aRed ∨ ∃ b, i = .aAbs b := by decide

theorem test_witness_EngineNeverWritesOperands :
    exec .aClr (sums 171 175) = .next { sums 171 175 with c0 := 0, c1 := 0 } := rfl

/-- A state that meets the invariant and whose step is a host write to the buffer. -/
theorem test_witness_StepKeepsInvariant :
    ({ sample encoded10 10 3 with status := 0x51, pending := [.writeBuf 9 0] } : State).Inv ∧
    (nextOf (step { sample encoded10 10 3 with status := 0x51, pending := [.writeBuf 9 0] })).map State.buf =
      some (changed 9 0).buf := by decide

/-- MicroOperationCounts: both commands, with and without a field. -/
theorem test_witness_MicroOperationCounts :
    ((0x00000001 : Word) = 0x00000001 ∨ (0x00000001 : Word) = 0x00000002) ∧
    ((0x00000002 : Word) = 0x00000001 ∨ (0x00000002 : Word) = 0x00000002) ∧
    legal (sample encoded10 10 0) ∧ legal (sample encoded10 10 3) := by decide

/-- Two engines on one memory, each with a VERIFY pending, and a third on a memory of its own. -/
def threeEngines : List Attached :=
  [⟨0, { sample encoded10 10 3 with pending := [.writeReg .cmd 0x00000002] }⟩,
   ⟨0, { sample encoded10 9 0 with pending := [.writeReg .cmd 0x00000002] }⟩,
   ⟨1, { sample [0xAA, 0x55] 2 1 with pending := [.writeReg .cmd 0x00000001] }⟩]

/-- Coherent instances that share a memory which neither step writes, and two on different memories. -/
theorem test_witness_InstancesAreIndependent :
    Coherent threeEngines ∧ (0 : Nat) ≠ 1 ∧ (0 : Nat) ≠ 2 ∧
    (threeEngines.map Attached.memory) = [0, 0, 1] ∧
    (threeEngines.map fun e => (nextOf (step e.state)).map fun t => decide (t.buf = e.state.buf)) =
      [some true, some true, some false] ∧
    (nextOf (stepInstance 0 threeEngines)).map (List.map fun e => e.state.result) = some [1, 0, 0] ∧
    (nextOf (stepInstance 2 threeEngines)).isSome = true := by
  refine ⟨?_, by decide, by decide, by decide, by decide +kernel, by decide +kernel, by decide +kernel⟩
  unfold Coherent; decide

/-- InstancesShareNoRegister and StepKeepsCoherence: an ENCODE of one engine on a memory it shares. -/
theorem test_witness_InstancesShareNoRegister :
    let engines := [⟨0, { sample [0xAA, 0x55] 2 1 with pending := [.writeReg .cmd 0x00000001] }⟩,
      ⟨0, sample [0xAA, 0x55] 0 0⟩, ⟨1, sample [0xAA, 0x55] 0 0⟩]
    Coherent engines ∧ (nextOf (stepInstance 0 engines)).map (List.map fun e => Memory.read e.state.buf 0) =
      some [0xFF, 0xFF, 0xAA] := by
  refine ⟨?_, by decide +kernel⟩
  unfold Coherent; decide

end Sys2Proof.Tests
end

section
/-! SUPPORT. ACCUMULATE in closed form: the state with the sums of the buffer's first octets, and what a segment makes of it. -/

namespace Sys2Proof.Machine

/-! ### The reference sums of two stretches, and their remainders -/

theorem plainSum_add (f : Nat → Nat) (m n : Nat) :
    plainSum f (m + n) = plainSum f m + plainSum (fun i => f (m + i)) n :=
  Finset.sum_range_add f m n

/-- The octets of the first stretch gain the weight of the second's length. -/
theorem weightedSum_add (f : Nat → Nat) (m n : Nat) :
    weightedSum f (m + n) = weightedSum f m + n * plainSum f m + weightedSum (fun i => f (m + i)) n := by
  induction m generalizing f with
  | zero => simp
  | succ m ih =>
    rw [show m + 1 + n = m + n + 1 by omega, weightedSum_succ_front, ih, weightedSum_succ_front, plainSum_succ_front]
    simp only [show ∀ i, m + i + 1 = m + 1 + i by omega]
    ring

theorem plainSum_add_mod (f : Nat → Nat) (m n : Nat) :
    (plainSum f m % 255 + plainSum (fun i => f (m + i)) n) % 255 = plainSum f (m + n) % 255 := by
  rw [plainSum_add, Nat.mod_add_mod]

theorem weightedSum_add_mod (f : Nat → Nat) (m n : Nat) :
    (weightedSum f m % 255 + n * (plainSum f m % 255) + weightedSum (fun i => f (m + i)) n) % 255 =
      weightedSum f (m + n) % 255 := by
  rw [weightedSum_add]
  exact ((Nat.mod_modEq _ 255).add ((Nat.mod_modEq _ 255).mul_left n)).add_right _

/-! ### The first `m` octets summed -/

/-- The state with `IDX` at `m` and in `C0` and `C1` the reduced sums of the first `m` octets: where ACCUMULATE stands
between two segments (R75, R81). -/
def summedTo (m : Nat) (s : State) : State :=
  (s.setIdx (BitVec.ofNat 32 m)).setSums
    (BitVec.ofNat 32 (plainSum (octetAt s) m % 255)) (BitVec.ofNat 32 (weightedSum (octetAt s) m % 255))

@[simp] theorem summedTo_c0_toNat (m : Nat) (s : State) : (summedTo m s).c0.toNat = plainSum (octetAt s) m % 255 :=
  toNat_ofNat_word (by omega)

@[simp] theorem summedTo_c1_toNat (m : Nat) (s : State) : (summedTo m s).c1.toNat = weightedSum (octetAt s) m % 255 :=
  toNat_ofNat_word (by omega)

theorem summedTo_idx_toNat {m : Nat} {s : State} (h : m ≤ s.cap.val) : (summedTo m s).idx.toNat = m := by
  have hcap : s.cap.val < 2147483648 := s.cap.isLt
  exact toNat_ofNat_word (by omega)

/-- ACCUMULATE starts with the sums of no octets (R75). -/
theorem summedTo_zero (s : State) : summedTo 0 s = (clearSums s).setIdx 0 := rfl

/-- A segment carries the sums on to its end. -/
theorem accumulateSegment_summedTo {len m : Nat} {s : State} (hlen : len ≤ s.cap.val) (hm : m ≤ len) :
    let e := min (m + 4102) len
    accumulateSegment len (summedTo m s) = .ok (summedTo e (s.setSegend (BitVec.ofNat 32 e))) := by
  intro e
  have hidx : (summedTo m s).idx.toNat = m := summedTo_idx_toNat (by omega)
  have hseg := accumulateSegment_eq (len := len) (s := summedTo m s) hlen (by omega)
    (by rw [summedTo_c0_toNat]; omega) (by rw [summedTo_c1_toNat]; omega)
  have hoct : octetAt (summedTo m s) = octetAt s := rfl
  simp only [hidx, hoct, summedTo_c0_toNat, summedTo_c1_toNat, plainSum_add_mod, weightedSum_add_mod] at hseg
  rw [hseg, show m + (min (m + 4102) len - m) = e by omega]
  rfl

/-- The segments that are left carry the sums on to `len`. -/
theorem accumulateSegments_summedTo {len m n : Nat} {s : State} (hlen : len ≤ s.cap.val) (hm : m ≤ len)
    (hn : len ≤ m + 4102 * n) (hn' : m + 4102 * n < len + 4102) :
    accumulateSegments len n (summedTo m s) =
      .ok (summedTo len (s.setSegend (if m < len then BitVec.ofNat 32 len else s.segend))) := by
  induction n generalizing m s with
  | zero =>
    obtain rfl : m = len := by omega
    rw [if_neg (lt_irrefl m)]
    rfl
  | succ n ih =>
    have hstep := ih (m := min (m + 4102) len) (s := s.setSegend (BitVec.ofNat 32 (min (m + 4102) len))) hlen
      (by omega) (by omega) (by omega)
    simp only [accumulateSegments, accumulateSegment_summedTo hlen hm, hstep, State.setSegend_setSegend,
      State.setSegend_segend]
    rw [if_pos (show m < len by omega)]
    split
    · rfl
    · rw [show min (m + 4102) len = len by omega]

/-- What ACCUMULATE leaves of a state: the sums of the first `len` octets, `IDX` at `len`, and `SEGEND` too unless
there was no segment. -/
def accumulated (len : Nat) (s : State) : State :=
  summedTo len (s.setSegend (if 0 < len then BitVec.ofNat 32 len else s.segend))

@[simp] theorem accumulated_len (n : Nat) (s : State) : (accumulated n s).len = s.len := rfl
@[simp] theorem accumulated_k (n : Nat) (s : State) : (accumulated n s).k = s.k := rfl
@[simp] theorem accumulated_cap (n : Nat) (s : State) : (accumulated n s).cap = s.cap := rfl
@[simp] theorem accumulated_buf (n : Nat) (s : State) : (accumulated n s).buf = s.buf := rfl
@[simp] theorem accumulated_pending (n : Nat) (s : State) : (accumulated n s).pending = s.pending := rfl
@[simp] theorem accumulated_reads (n : Nat) (s : State) : (accumulated n s).reads = s.reads := rfl

@[simp] theorem accumulated_c0_toNat (n : Nat) (s : State) :
    (accumulated n s).c0.toNat = plainSum (octetAt s) n % 255 := summedTo_c0_toNat n _

@[simp] theorem accumulated_c1_toNat (n : Nat) (s : State) :
    (accumulated n s).c1.toNat = weightedSum (octetAt s) n % 255 := summedTo_c1_toNat n _

/-- ACCUMULATE in closed form (R81). -/
theorem accumulate_eq {len : Nat} {s : State} (hlen : len ≤ s.cap.val) :
    accumulate len s = .ok (accumulated len s) := by
  obtain ⟨hn, hn'⟩ := segmentCount_bounds len
  rw [accumulate, ← summedTo_zero]
  exact accumulateSegments_summedTo hlen (Nat.zero_le len) (by omega) (by omega)

/-- The sums ACCUMULATE leaves depend on the buffer alone. -/
theorem accumulated_sums_of_buf {s u : State} (len : Nat) (hbuf : u.buf = s.buf) :
    (accumulated len u).c0 = (accumulated len s).c0 ∧ (accumulated len u).c1 = (accumulated len s).c1 := by
  have hoct : octetAt u = octetAt s := by funext i; simp only [octetAt, hbuf]
  constructor <;> apply BitVec.eq_of_toNat_eq <;> simp only [accumulated_c0_toNat, accumulated_c1_toNat, hoct]

end Sys2Proof.Machine
end

section
/-! SUPPORT. What ENCODE and VERIFY answer, said once: the violation of the argument check, or the state after the body. -/

namespace Sys2Proof.Machine

/-- The state with the two octets of the field of `k` replaced (R40). -/
def withField (k : Int) (a b : Octet) (s : State) : State :=
  s.setBuf (Memory.write (Memory.write s.buf (fieldFirst k) a) (fieldSecond k) b)

/-- What ACCUMULATE leaves of `s` over its first `LEN` octets. -/
def accumulatedLen (s : State) : State := accumulated s.len.toInt.toNat s

/-- What VERIFY answers on legal arguments (R114). -/
def verifyAnswer (s : State) : State := complete (verdictWord (accumulatedLen s)) (accumulatedLen s)

/-- What ENCODE answers on legal arguments with `k = 0` (R113). -/
def sumAnswer (s : State) : State := complete (combinedValue (accumulatedLen s)) (accumulatedLen s)

/-- What ACCUMULATE leaves over the buffer with the field zeroed (R112). -/
def encodeAccumulated (s : State) : State := accumulatedLen (withField s.k.toInt 0 0 s)

/-- The state after I.INV in ENCODE with `k > 0` (R111). -/
def encodeInverted (s : State) : State := invert s.len.toInt s.k.toInt (encodeAccumulated s)

/-- What ENCODE answers on legal arguments with `k > 0` (R111). -/
def encodeAnswer (s : State) : State :=
  complete (combinedValue (encodeAccumulated s))
    (withField s.k.toInt (encodeInverted s).iq (encodeInverted s).ir (encodeInverted s))

@[simp] theorem withField_buf (k : Int) (a b : Octet) (s : State) : (withField k a b s).buf =
    Memory.write (Memory.write s.buf (fieldFirst k) a) (fieldSecond k) b := rfl

@[simp] theorem accumulatedLen_buf (s : State) : (accumulatedLen s).buf = s.buf := accumulated_buf _ s

@[simp] theorem complete_status (w : Word) (s : State) : (complete w s).status = statusOk := rfl
@[simp] theorem complete_result (w : Word) (s : State) : (complete w s).result = w := rfl
@[simp] theorem complete_buf (w : Word) (s : State) : (complete w s).buf = s.buf := rfl

@[simp] theorem invert_buf (len k : Int) (s : State) : (invert len k s).buf = s.buf := rfl

@[simp] theorem verifyAnswer_status (s : State) : (verifyAnswer s).status = statusOk := complete_status _ _
@[simp] theorem verifyAnswer_result (s : State) : (verifyAnswer s).result = verdictWord (accumulatedLen s) :=
  complete_result _ _
@[simp] theorem verifyAnswer_buf (s : State) : (verifyAnswer s).buf = s.buf :=
  (complete_buf _ _).trans (accumulatedLen_buf s)

@[simp] theorem sumAnswer_status (s : State) : (sumAnswer s).status = statusOk := complete_status _ _
@[simp] theorem sumAnswer_result (s : State) : (sumAnswer s).result = combinedValue (accumulatedLen s) :=
  complete_result _ _
@[simp] theorem sumAnswer_buf (s : State) : (sumAnswer s).buf = s.buf :=
  (complete_buf _ _).trans (accumulatedLen_buf s)

@[simp] theorem encodeInverted_buf (s : State) : (encodeInverted s).buf = (withField s.k.toInt 0 0 s).buf :=
  (invert_buf _ _ _).trans (accumulatedLen_buf _)

@[simp] theorem encodeAnswer_status (s : State) : (encodeAnswer s).status = statusOk := complete_status _ _
@[simp] theorem encodeAnswer_result (s : State) : (encodeAnswer s).result = combinedValue (encodeAccumulated s) :=
  complete_result _ _
@[simp] theorem encodeAnswer_buf (s : State) : (encodeAnswer s).buf =
    (withField s.k.toInt (encodeInverted s).iq (encodeInverted s).ir (encodeInverted s)).buf := complete_buf _ _

theorem execVerify_legal {s : State} (h : LegalArgs s.cap.val s.len.toInt s.k.toInt) :
    exec .verify s = .next (verifyAnswer s) := by
  have hacc : accumulate s.len.toInt.toNat s = .ok (accumulatedLen s) := accumulate_eq (by omega)
  calc exec .verify s = settle (verifyBody s.len.toInt s) :=
      checked_legal (body := fun len _ => verifyBody len) h
    _ = .next (verifyAnswer s) := by rw [verifyBody_eq hacc]; rfl

theorem execEncode_sum {s : State} (h : LegalArgs s.cap.val s.len.toInt s.k.toInt) (hk : s.k.toInt = 0) :
    exec .encode s = .next (sumAnswer s) := by
  have hacc : accumulate s.len.toInt.toNat s = .ok (accumulatedLen s) := accumulate_eq (by omega)
  calc exec .encode s = settle (encodeBody s.len.toInt s.k.toInt s) := checked_legal h
    _ = .next (sumAnswer s) := by rw [hk, encodeBody_sum hacc]; rfl

theorem execEncode_field {s : State} (h : LegalArgs s.cap.val s.len.toInt s.k.toInt) (hk : 0 < s.k.toInt) :
    exec .encode s = .next (encodeAnswer s) := by
  obtain ⟨hsecond, hinside, hfirst⟩ := field_indices (len := s.len.toInt) hk (by omega)
  have hacc : accumulate s.len.toInt.toNat (withField s.k.toInt 0 0 s) = .ok (encodeAccumulated s) :=
    accumulate_eq (s := withField s.k.toInt 0 0 s) (by simp only [withField, State.setBuf_cap]; omega)
  calc exec .encode s = settle (encodeBody s.len.toInt s.k.toInt s) := checked_legal h
    _ = .next (encodeAnswer s) := by
      rw [encodeBody_field hk (by omega) (by omega) hacc rfl]
      rfl

/-- Both operations raise the first violation of the argument check (R110, R141). -/
theorem exec_violation {i : Instr} {s : State} {c : Cause} (hi : i = .encode ∨ i = .verify)
    (h : checkArgs s.cap.val s.len.toInt s.k.toInt = some c) :
    exec i s = .next (raise (.invalidArgument c) s) := by
  obtain rfl | rfl := hi
  · exact checked_violation (body := encodeBody) h
  · exact checked_violation (body := fun len _ => verifyBody len) h

/-- VERIFY raises the first violation of the argument check, or answers the state after its body. -/
theorem execVerify_cases (s : State) :
    (∃ c, checkArgs s.cap.val s.len.toInt s.k.toInt = some c ∧
      exec .verify s = .next (raise (.invalidArgument c) s)) ∨
    (LegalArgs s.cap.val s.len.toInt s.k.toInt ∧ exec .verify s = .next (verifyAnswer s)) := by
  cases hc : checkArgs s.cap.val s.len.toInt s.k.toInt with
  | some c => exact .inl ⟨c, rfl, exec_violation (.inr rfl) hc⟩
  | none => exact .inr ⟨checkArgs_none.1 hc, execVerify_legal (checkArgs_none.1 hc)⟩

/-- ENCODE raises the first violation of the argument check, or answers the state after its body: the one of SUM where
`k = 0`, the one with the field filled where `k > 0`. -/
theorem execEncode_cases (s : State) :
    (∃ c, checkArgs s.cap.val s.len.toInt s.k.toInt = some c ∧
      exec .encode s = .next (raise (.invalidArgument c) s)) ∨
    (LegalArgs s.cap.val s.len.toInt s.k.toInt ∧ s.k.toInt = 0 ∧ exec .encode s = .next (sumAnswer s)) ∨
    (LegalArgs s.cap.val s.len.toInt s.k.toInt ∧ 0 < s.k.toInt ∧ exec .encode s = .next (encodeAnswer s)) := by
  cases hc : checkArgs s.cap.val s.len.toInt s.k.toInt with
  | some c => exact .inl ⟨c, rfl, exec_violation (.inl rfl) hc⟩
  | none =>
    have h := checkArgs_none.1 hc
    obtain hk | hk : s.k.toInt = 0 ∨ 0 < s.k.toInt := by omega
    · exact .inr (.inl ⟨h, hk, execEncode_sum h hk⟩)
    · exact .inr (.inr ⟨h, hk, execEncode_field h hk⟩)

end Sys2Proof.Machine
end

section
/-! PROOFS. No instruction changes the operands, the capacity, the pending inputs or the delivered values. -/

namespace Sys2Proof.Machine

/-- The registers `LEN` and `K`, the capacity, the pending inputs and the delivered values of `s` still stand in `t`. -/
def OperandsKept (s t : State) : Prop :=
  t.len = s.len ∧ t.k = s.k ∧ t.cap = s.cap ∧ t.pending = s.pending ∧ t.reads = s.reads

theorem raise_operandsKept (e : Exception) (s : State) : OperandsKept s (raise e s) := ⟨rfl, rfl, rfl, rfl, rfl⟩

theorem OperandsKept.trans {s t u : State} (h : OperandsKept s t) (h' : OperandsKept t u) : OperandsKept s u := by
  obtain ⟨hlen, hk, hcap, hpending, hreads⟩ := h
  obtain ⟨hlen', hk', hcap', hpending', hreads'⟩ := h'
  exact ⟨hlen'.trans hlen, hk'.trans hk, hcap'.trans hcap, hpending'.trans hpending, hreads'.trans hreads⟩

theorem complete_operandsKept (w : Word) (s : State) : OperandsKept s (complete w s) := ⟨rfl, rfl, rfl, rfl, rfl⟩

theorem withField_operandsKept (k : Int) (a b : Octet) (s : State) : OperandsKept s (withField k a b s) :=
  ⟨rfl, rfl, rfl, rfl, rfl⟩

theorem invert_operandsKept (len k : Int) (s : State) : OperandsKept s (invert len k s) := ⟨rfl, rfl, rfl, rfl, rfl⟩

theorem accumulatedLen_operandsKept (s : State) : OperandsKept s (accumulatedLen s) :=
  ⟨accumulated_len _ s, accumulated_k _ s, accumulated_cap _ s, accumulated_pending _ s, accumulated_reads _ s⟩

theorem verifyAnswer_operandsKept (s : State) : OperandsKept s (verifyAnswer s) :=
  (accumulatedLen_operandsKept s).trans (complete_operandsKept _ _)

theorem sumAnswer_operandsKept (s : State) : OperandsKept s (sumAnswer s) :=
  (accumulatedLen_operandsKept s).trans (complete_operandsKept _ _)

theorem encodeAnswer_operandsKept (s : State) : OperandsKept s (encodeAnswer s) := by
  have haccumulated : OperandsKept s (encodeAccumulated s) :=
    (withField_operandsKept _ 0 0 s).trans (accumulatedLen_operandsKept _)
  have hinverted : OperandsKept s (encodeInverted s) := haccumulated.trans (invert_operandsKept _ _ _)
  exact (hinverted.trans (withField_operandsKept _ _ _ _)).trans (complete_operandsKept _ _)

/-- Every instruction answers a next state, and that state has the operands of the one before. -/
theorem exec_operandsKept (i : Instr) (s : State) : ∃ t, exec i s = .next t ∧ OperandsKept s t := by
  cases i with
  | encode =>
    obtain ⟨c, -, h⟩ | ⟨-, -, h⟩ | ⟨-, -, h⟩ := execEncode_cases s
    · exact ⟨_, h, raise_operandsKept _ s⟩
    · exact ⟨_, h, sumAnswer_operandsKept s⟩
    · exact ⟨_, h, encodeAnswer_operandsKept s⟩
  | verify =>
    obtain ⟨c, -, h⟩ | ⟨-, h⟩ := execVerify_cases s
    · exact ⟨_, h, raise_operandsKept _ s⟩
    · exact ⟨_, h, verifyAnswer_operandsKept s⟩
  | aHold => exact ⟨s, rfl, rfl, rfl, rfl, rfl, rfl⟩
  | aClr => exact ⟨clearSums s, rfl, rfl, rfl, rfl, rfl, rfl⟩
  | aAbs b => exact ⟨absorb b s, rfl, rfl, rfl, rfl, rfl, rfl⟩
  | aRed => exact ⟨reduceSums s, rfl, rfl, rfl, rfl, rfl, rfl⟩
  | iHold => exact ⟨s, rfl, rfl, rfl, rfl, rfl, rfl⟩
  | iInv => exact ⟨_, rfl, invert_operandsKept _ _ s⟩

/-- Settles O46: the one state an instruction answers has the operands of the state before. -/
theorem engineNeverWritesOperands : Obligations.EngineNeverWritesOperands := by
  intro i s t h
  obtain ⟨t', h', hkept⟩ := exec_operandsKept i s
  obtain rfl : t' = t := by rw [h'] at h; injection h
  exact hkept

end Sys2Proof.Machine
end

section
/-! PROOFS. The outcome of an operation depends on its operands only. -/

namespace Sys2Proof.Machine

/-- What an operation may depend on is the same in both states (R21). -/
def SameOperands (s u : State) : Prop := u.len = s.len ∧ u.k = s.k ∧ u.cap = s.cap ∧ u.buf = s.buf

/-- Two states that show the host the same outcome: STATUS, the buffer, and RESULT where STATUS is OK. -/
def SameOutcome (t v : State) : Prop := v.status = t.status ∧ v.buf = t.buf ∧ (t.status = 0 → v.result = t.result)

/-- After an exception STATUS says so, and RESULT is free. -/
theorem raise_sameOutcome (e : Exception) {s u : State} (hbuf : u.buf = s.buf) :
    SameOutcome (raise e s) (raise e u) := by
  refine ⟨rfl, hbuf, fun h0 => ?_⟩
  rw [raise_status] at h0
  exact absurd (congrArg statusCode h0) (exceptionStatus_legal e).2

/-- The octets I.INV computes from reduced sums depend on the sums alone. -/
theorem invert_octets_of_sums {s u : State} (len k : Int) (h : s.c0.toNat ≤ 254) (h0 : u.c0 = s.c0)
    (h1 : u.c1 = s.c1) : (invert len k u).iq = (invert len k s).iq ∧ (invert len k u).ir = (invert len k s).ir := by
  rw [invert_fits len k h, invert_fits len k (by rw [h0]; exact h), h0, h1]
  exact ⟨rfl, rfl⟩

theorem accumulatedLen_sums_of_operands {s u : State} (hlen : u.len = s.len) (hbuf : u.buf = s.buf) :
    (accumulatedLen u).c0 = (accumulatedLen s).c0 ∧ (accumulatedLen u).c1 = (accumulatedLen s).c1 := by
  unfold accumulatedLen
  rw [hlen]
  exact accumulated_sums_of_buf _ hbuf

theorem verifyAnswer_sameOutcome {s u : State} (h : SameOperands s u) :
    SameOutcome (verifyAnswer s) (verifyAnswer u) := by
  obtain ⟨hlen, -, -, hbuf⟩ := h
  obtain ⟨h0, h1⟩ := accumulatedLen_sums_of_operands hlen hbuf
  have hresult : verdictWord (accumulatedLen u) = verdictWord (accumulatedLen s) := by
    rw [verdictWord_eq, verdictWord_eq, h0, h1]
  simp only [SameOutcome, verifyAnswer_status, verifyAnswer_buf, verifyAnswer_result, hbuf, hresult, implies_true,
    and_self]

theorem sumAnswer_sameOutcome {s u : State} (h : SameOperands s u) : SameOutcome (sumAnswer s) (sumAnswer u) := by
  obtain ⟨hlen, -, -, hbuf⟩ := h
  obtain ⟨h0, h1⟩ := accumulatedLen_sums_of_operands hlen hbuf
  have hresult : combinedValue (accumulatedLen u) = combinedValue (accumulatedLen s) := by
    rw [combinedValue, combinedValue, h0, h1]
  simp only [SameOutcome, sumAnswer_status, sumAnswer_buf, sumAnswer_result, hbuf, hresult, implies_true, and_self]

theorem encodeAnswer_sameOutcome {s u : State} (h : SameOperands s u) :
    SameOutcome (encodeAnswer s) (encodeAnswer u) := by
  obtain ⟨hlen, hk, -, hbuf⟩ := h
  have hzeroed : (withField u.k.toInt 0 0 u).buf = (withField s.k.toInt 0 0 s).buf := by
    simp only [withField, State.setBuf_buf, hbuf, hk]
  obtain ⟨h0, h1⟩ : (encodeAccumulated u).c0 = (encodeAccumulated s).c0 ∧
      (encodeAccumulated u).c1 = (encodeAccumulated s).c1 := accumulatedLen_sums_of_operands hlen hzeroed
  have hreduced : (encodeAccumulated s).c0.toNat ≤ 254 := by
    rw [encodeAccumulated, accumulatedLen, accumulated_c0_toNat]; omega
  obtain ⟨hq, hr⟩ : (encodeInverted u).iq = (encodeInverted s).iq ∧
      (encodeInverted u).ir = (encodeInverted s).ir := by
    rw [encodeInverted, hlen, hk]
    exact invert_octets_of_sums _ _ hreduced h0 h1
  have hresult : combinedValue (encodeAccumulated u) = combinedValue (encodeAccumulated s) := by
    rw [combinedValue, combinedValue, h0, h1]
  simp only [SameOutcome, encodeAnswer_status, encodeAnswer_buf, encodeAnswer_result, withField_buf, encodeInverted_buf,
    hk, hbuf, hq, hr, hresult, implies_true, and_self]

/-- Settles O45: both states fail the argument check with the same cause, or both pass it and answer what the operands
determine. -/
theorem outcomeDependsOnOperandsOnly : Obligations.OutcomeDependsOnOperandsOnly := by
  intro s u i hi hlen hk hcap hbuf
  have hops : SameOperands s u := ⟨hlen, hk, hcap, hbuf⟩
  have hcheck : checkArgs u.cap.val u.len.toInt u.k.toInt = checkArgs s.cap.val s.len.toInt s.k.toInt := by
    rw [hlen, hk, hcap]
  suffices ∃ t v, exec i s = .next t ∧ exec i u = .next v ∧ SameOutcome t v from this
  cases hc : checkArgs s.cap.val s.len.toInt s.k.toInt with
  | some c =>
    exact ⟨_, _, exec_violation hi hc, exec_violation hi (hcheck.trans hc), raise_sameOutcome _ hbuf⟩
  | none =>
    have hs : LegalArgs s.cap.val s.len.toInt s.k.toInt := checkArgs_none.1 hc
    have hu : LegalArgs u.cap.val u.len.toInt u.k.toInt := checkArgs_none.1 (hcheck.trans hc)
    obtain rfl | rfl := hi
    · obtain hk0 | hkpos : s.k.toInt = 0 ∨ 0 < s.k.toInt := by omega
      · exact ⟨_, _, execEncode_sum hs hk0, execEncode_sum hu (by rw [hk]; exact hk0), sumAnswer_sameOutcome hops⟩
      · exact ⟨_, _, execEncode_field hs hkpos, execEncode_field hu (by rw [hk]; exact hkpos),
          encodeAnswer_sameOutcome hops⟩
    · exact ⟨_, _, execVerify_legal hs, execVerify_legal hu, verifyAnswer_sameOutcome hops⟩

end Sys2Proof.Machine
end

section
/-! PROOFS. Several engines: a step changes no other engine's registers, and keeps what is shared the same to all. -/

namespace Sys2Proof.Machine

theorem runControlWord_operandsKept (cw : ControlWord) (s : State) :
    ∃ t, runControlWord cw s = .next t ∧ OperandsKept s t := by
  cases hd : decode cw with
  | ok i => rw [runControlWord_ok hd]; exact exec_operandsKept i s
  | error e => exact ⟨_, runControlWord_error hd s, raise_operandsKept _ s⟩

theorem takeInput_cap {inp : Input} {s t : State} (h : takeInput inp s = .next t) : t.cap = s.cap := by
  obtain ⟨w, e⟩ | ⟨w, e⟩ | e | ⟨cw, e⟩ | ⟨w, e⟩ | ⟨i, b, -, e⟩ | e | e := takeInput_cases inp s
  all_goals rw [e] at h
  case inr.inr.inr.inl =>
    obtain ⟨t', ht', -, -, hcap, -⟩ := runControlWord_operandsKept cw s
    obtain rfl : t' = t := by rw [ht'] at h; injection h
    exact hcap
  case inr.inr.inr.inr.inr.inr.inr => injection h
  all_goals
    cases h
    rfl

/-- No step changes the capacity (R22). -/
theorem step_cap {s t : State} (h : step s = .next t) : t.cap = s.cap := by
  cases hp : s.pending with
  | nil =>
    obtain rfl : s = t := by simpa only [step, hp, Host.Outcome.next.injEq] using h
    rfl
  | cons inp rest =>
    rw [step_of_pending hp] at h
    simpa only [State.setPending_cap] using takeInput_cap h

/-- What a step of the engine at `n` leaves: nothing changed where there is no such engine; else its own step, shown to
every engine, with the stepped one put back in its place. -/
theorem stepInstance_cases {n : Nat} {engines after : List Attached} (h : stepInstance n engines = .next after) :
    (engines[n]? = none ∧ after = engines) ∨
    ∃ e t, engines[n]? = some e ∧ step e.state = .next t ∧
      after = (engines.map (showBuffer e.memory t.buf)).set n ⟨e.memory, t⟩ := by
  unfold stepInstance at h
  cases he : engines[n]? with
  | none =>
    rw [he] at h
    injection h with h
    exact .inl ⟨rfl, h.symm⟩
  | some e =>
    rw [he] at h
    cases ht : step e.state with
    | next t =>
      simp only [ht, andThen_next, Host.Outcome.next.injEq] at h
      exact .inr ⟨e, t, rfl, ht, h.symm⟩
    | fault r => simp only [ht, andThen_fault, reduceCtorEq] at h
    | refused r => simp only [ht, andThen_refused, reduceCtorEq] at h

/-! ### What an engine sees of another's step -/

@[simp] theorem showBuffer_memory (m : Nat) (l : List Host.Cell) (f : Attached) :
    (showBuffer m l f).memory = f.memory := by
  unfold showBuffer; split <;> rfl

@[simp] theorem showBuffer_cap (m : Nat) (l : List Host.Cell) (f : Attached) :
    (showBuffer m l f).state.cap = f.state.cap := by
  unfold showBuffer; split <;> rfl

theorem showBuffer_other {m : Nat} {f : Attached} (h : f.memory ≠ m) (l : List Host.Cell) : showBuffer m l f = f :=
  if_neg h

theorem showBuffer_buf (m : Nat) (l : List Host.Cell) (f : Attached) :
    (showBuffer m l f).state.buf = if f.memory = m then l else f.state.buf := by
  unfold showBuffer; split <;> rfl

/-- Only the view of the buffer can change. -/
theorem showBuffer_frame (m : Nat) (l : List Host.Cell) (f : Attached) :
    showBuffer m l f = { f with state := { f.state with buf := (showBuffer m l f).state.buf } } := by
  unfold showBuffer; split <;> rfl

/-- Settles O52: the other engine is the old one as the step's buffer is shown to it. -/
theorem instancesShareNoRegister : Obligations.InstancesShareNoRegister := by
  intro engines after n m e f hnm he hf h
  obtain ⟨hnone, -⟩ | ⟨e', t, he', -, rfl⟩ := stepInstance_cases h
  · rw [he] at hnone
    cases hnone
  · obtain rfl : e = e' := by rw [he] at he'; injection he'
    refine ⟨showBuffer e.memory t.buf f, ?_, showBuffer_frame _ _ f, fun hmem => showBuffer_other hmem _⟩
    rw [List.getElem?_set_ne hnm, List.getElem?_map, hf]
    rfl

/-- Every engine after a step stands for one before it, attached to the same memory with the same capacity, and sees
what the step left where that memory is the stepped one, and what it saw before elsewhere. -/
theorem mem_after_step {engines : List Attached} {n : Nat} {e g : Attached} {t : State} (he : engines[n]? = some e)
    (ht : step e.state = .next t) (hg : g ∈ (engines.map (showBuffer e.memory t.buf)).set n ⟨e.memory, t⟩) :
    ∃ f ∈ engines, g.memory = f.memory ∧ g.state.cap = f.state.cap ∧
      g.state.buf = if f.memory = e.memory then t.buf else f.state.buf := by
  obtain hg | rfl := List.mem_or_eq_of_mem_set hg
  · obtain ⟨f, hf, rfl⟩ := List.mem_map.1 hg
    exact ⟨f, hf, showBuffer_memory _ _ f, showBuffer_cap _ _ f, showBuffer_buf _ _ f⟩
  · exact ⟨e, List.mem_of_getElem? he, rfl, step_cap ht, (if_pos rfl).symm⟩

/-- Settles O53: two engines on one memory stand for two before the step, which agreed; both see what the step left
there, or both what they saw before. -/
theorem stepKeepsCoherence : Obligations.StepKeepsCoherence := by
  intro engines after n hco h
  obtain ⟨-, rfl⟩ | ⟨e, t, he, ht, rfl⟩ := stepInstance_cases h
  · exact hco
  · intro g hg g' hg' hmem
    obtain ⟨f, hf, hm, hc, hb⟩ := mem_after_step he ht hg
    obtain ⟨f', hf', hm', hc', hb'⟩ := mem_after_step he ht hg'
    have hff' : f.memory = f'.memory := by rw [← hm, ← hm', hmem]
    obtain ⟨hbuf, hcap⟩ := hco f hf f' hf' hff'
    exact ⟨by rw [hb, hb', hff', hbuf], by rw [hc, hc', hcap]⟩

end Sys2Proof.Machine
end

section
/-! SUPPORT. The buffer seen from the state: one octet's accesses, and the field of ENCODE written into it. -/

namespace Sys2Proof.Machine

/-- A read of the octet that another content of the buffer holds too. -/
theorem memRead_setBuf_of_read {s : State} {m : List Host.Cell} {i : Nat}
    (h : Memory.read m i = Memory.read s.buf i) : memRead (s.setBuf m) i = memRead s i := by
  simp only [memRead, State.setBuf_cap, State.setBuf_buf, h]

/-- A host write of an octet that exists changes the buffer and takes the input, and nothing else (R10, R34). -/
theorem step_writeBuf {s : State} {i : Nat} {v : Octet} {rest : List Input} (hp : s.pending = .writeBuf i v :: rest)
    (h : i < s.cap.val) : step s = .next ((s.setPending rest).setBuf (Memory.write s.buf i v)) := by
  rw [step_of_pending hp, takeInput, memWrite_inside (s := s.setPending rest) h, settle_ok, State.setPending_buf]

/-- A host read of an octet that exists delivers it and takes the input, and nothing else (R10, R34). -/
theorem step_readBuf {s : State} {i : Nat} {rest : List Input} (hp : s.pending = .readBuf i :: rest)
    (h : i < s.cap.val) : step s = .next ((s.setPending rest).deliver ((Memory.read s.buf i).setWidth 32)) := by
  rw [step_of_pending hp, takeInput, readHostBuf_inside (s := s.setPending rest) h, State.setPending_buf]

theorem withField_buf_wf {s : State} (h : Memory.wf s.buf) (k : Int) (a b : Octet) :
    Memory.wf (withField k a b s).buf :=
  Memory.wf_write (Memory.wf_write h _ a) _ b

/-- The field of a `k > 0` holds the two octets written, every other index what it held (R34, R40). -/
theorem withField_read {s : State} (h : Memory.wf s.buf) {k : Int} (hk : 0 < k) (a b : Octet) (i : Nat) :
    Memory.read (withField k a b s).buf i =
      if i = fieldFirst k then a else if i = fieldSecond k then b else Memory.read s.buf i :=
  storeField_read h (by simp only [fieldFirst, fieldSecond]; omega) a b i

theorem encodeInverted_buf_wf {s : State} (h : Memory.wf s.buf) : Memory.wf (encodeInverted s).buf := by
  rw [encodeInverted_buf]
  exact withField_buf_wf h _ 0 0

/-- ENCODE with `k > 0` leaves the octets of I.INV in the field, and every other octet as it was (R111). -/
theorem encodeAnswer_read {s : State} (h : Memory.wf s.buf) (hk : 0 < s.k.toInt) (i : Nat) :
    Memory.read (encodeAnswer s).buf i =
      if i = fieldFirst s.k.toInt then (encodeInverted s).iq
      else if i = fieldSecond s.k.toInt then (encodeInverted s).ir else Memory.read s.buf i := by
  rw [encodeAnswer_buf, withField_read (encodeInverted_buf_wf h) hk, encodeInverted_buf, withField_read h hk]
  split_ifs <;> rfl

end Sys2Proof.Machine
end

section
/-! PROOFS. One octet of the buffer read and written, by the machine's accesses and by the host's. -/

namespace Sys2Proof.Machine

/-- Settles O8: the write is inside the buffer, and the buffer's law of reading after writing gives every read. -/
theorem bufferReadAfterWrite : Obligations.BufferReadAfterWrite := by
  intro s i v hwf hi
  refine ⟨memRead_inside hi, _, memWrite_inside hi v, rfl, Memory.wf_write hwf i v, ?_, fun j hj => ?_⟩
  · rw [memRead_inside (s := s.setBuf (Memory.write s.buf i v)) hi, State.setBuf_buf, Memory.read_write_same hwf]
  · exact memRead_setBuf_of_read (Memory.read_write_other hwf hj v)

/-- Settles O9: both accesses are inside the buffer, and the second reads what the first left. -/
theorem hostBufferAccess : Obligations.HostBufferAccess := by
  intro s rest i j v ⟨hwf, _⟩ hi hj hp
  refine ⟨_, _, step_writeBuf hp hi, step_readBuf rfl hj, rfl, ?_⟩
  rw [State.setBuf_buf, Memory.read_write hwf]
  rfl

end Sys2Proof.Machine
end

section
/-! PROOFS. Octets at and above `len`: neither operation reads or changes them. -/

namespace Sys2Proof.Machine

/-- Two states that differ in octets at and above `n` only. -/
def DifferFrom (n : Nat) (s u : State) : Prop := (∃ m, u = s.setBuf m) ∧ AgreeBelow n s u

/-- What stands at and above `n` in the buffer of `s` still stands there in `t`. -/
def KeepsFrom (n : Nat) (s t : State) : Prop := ∀ a, n ≤ a → Memory.read t.buf a = Memory.read s.buf a

/-- What does not look at the buffer is the same in both states. -/
theorem DifferFrom.same {α : Type} {n : Nat} {s u : State} (h : DifferFrom n s u) (f : State → α)
    (hf : ∀ s m, f (s.setBuf m) = f s) : f u = f s := by
  obtain ⟨⟨m, rfl⟩, -⟩ := h
  exact hf s m

/-! ### The parts of an operation carry the relation on -/

theorem plainSum_congr {f g : Nat → Nat} {n : Nat} (h : ∀ i, i < n → f i = g i) : plainSum f n = plainSum g n :=
  Finset.sum_congr rfl fun i hi => h i (Finset.mem_range.1 hi)

theorem weightedSum_congr {f g : Nat → Nat} {n : Nat} (h : ∀ i, i < n → f i = g i) :
    weightedSum f n = weightedSum g n :=
  Finset.sum_congr rfl fun i hi => by rw [h i (Finset.mem_range.1 hi)]

/-- ACCUMULATE over `n` octets reads none of those from `n` on: the sums agree. -/
theorem accumulated_differFrom {n : Nat} {s u : State} (h : DifferFrom n s u) :
    DifferFrom n (accumulated n s) (accumulated n u) := by
  obtain ⟨⟨m, rfl⟩, hagree⟩ := h
  have h0 : (accumulated n (s.setBuf m)).c0 = (accumulated n s).c0 :=
    BitVec.eq_of_toNat_eq (by rw [accumulated_c0_toNat, accumulated_c0_toNat, plainSum_congr hagree])
  have h1 : (accumulated n (s.setBuf m)).c1 = (accumulated n s).c1 :=
    BitVec.eq_of_toNat_eq (by rw [accumulated_c1_toNat, accumulated_c1_toNat, weightedSum_congr hagree])
  refine ⟨⟨m, ?_⟩, hagree⟩
  calc accumulated n (s.setBuf m) = ((accumulated n s).setBuf m).setSums
        (accumulated n (s.setBuf m)).c0 (accumulated n (s.setBuf m)).c1 := rfl
    _ = (accumulated n s).setBuf m := by rw [h0, h1]; rfl

theorem invert_differFrom {n : Nat} {s u : State} (h : DifferFrom n s u) (len k : Int) :
    DifferFrom n (invert len k s) (invert len k u) := by
  obtain ⟨⟨m, rfl⟩, hagree⟩ := h
  exact ⟨⟨m, rfl⟩, hagree⟩

theorem complete_differFrom {n : Nat} {s u : State} (h : DifferFrom n s u) (w : Word) :
    DifferFrom n (complete w s) (complete w u) := by
  obtain ⟨⟨m, rfl⟩, hagree⟩ := h
  exact ⟨⟨m, rfl⟩, hagree⟩

/-- The same two octets stored in both states: an index below `n` shows them or what it showed before. -/
theorem withField_differFrom {n : Nat} {s u : State} (hs : Memory.wf s.buf) (hu : Memory.wf u.buf)
    (h : DifferFrom n s u) {k : Int} (hk : 0 < k) (a b : Octet) :
    DifferFrom n (withField k a b s) (withField k a b u) := by
  obtain ⟨⟨m, rfl⟩, hagree⟩ := h
  refine ⟨⟨_, rfl⟩, fun i hi => ?_⟩
  have hi : Memory.read s.buf i = Memory.read m i := BitVec.eq_of_toNat_eq (hagree i hi)
  simp only [octetAt, withField_read hs hk, withField_read hu hk, State.setBuf_buf, hi]

/-! ### The operations carry the relation on -/

theorem accumulatedLen_differFrom {s u : State} (h : DifferFrom s.len.toInt.toNat s u) :
    DifferFrom s.len.toInt.toNat (accumulatedLen s) (accumulatedLen u) := by
  rw [accumulatedLen, accumulatedLen, h.same State.len fun _ _ => rfl]
  exact accumulated_differFrom h

theorem verifyAnswer_differFrom {s u : State} (h : DifferFrom s.len.toInt.toNat s u) :
    DifferFrom s.len.toInt.toNat (verifyAnswer s) (verifyAnswer u) := by
  have hacc := accumulatedLen_differFrom h
  rw [verifyAnswer, verifyAnswer, hacc.same verdictWord fun _ _ => rfl]
  exact complete_differFrom hacc _

theorem sumAnswer_differFrom {s u : State} (h : DifferFrom s.len.toInt.toNat s u) :
    DifferFrom s.len.toInt.toNat (sumAnswer s) (sumAnswer u) := by
  have hacc := accumulatedLen_differFrom h
  rw [sumAnswer, sumAnswer, hacc.same combinedValue fun _ _ => rfl]
  exact complete_differFrom hacc _

theorem encodeAccumulated_differFrom {s u : State} (hs : Memory.wf s.buf) (hu : Memory.wf u.buf)
    (h : DifferFrom s.len.toInt.toNat s u) (hk : 0 < s.k.toInt) :
    DifferFrom s.len.toInt.toNat (encodeAccumulated s) (encodeAccumulated u) := by
  rw [encodeAccumulated, encodeAccumulated, h.same State.k fun _ _ => rfl]
  exact accumulatedLen_differFrom (withField_differFrom hs hu h hk 0 0)

theorem encodeAnswer_differFrom {s u : State} (hs : Memory.wf s.buf) (hu : Memory.wf u.buf)
    (h : DifferFrom s.len.toInt.toNat s u) (hk : 0 < s.k.toInt) :
    DifferFrom s.len.toInt.toNat (encodeAnswer s) (encodeAnswer u) := by
  have hacc := encodeAccumulated_differFrom hs hu h hk
  have hinv : DifferFrom s.len.toInt.toNat (encodeInverted s) (encodeInverted u) := by
    rw [encodeInverted, encodeInverted, h.same State.len fun _ _ => rfl, h.same State.k fun _ _ => rfl]
    exact invert_differFrom hacc _ _
  rw [encodeAnswer, encodeAnswer, hacc.same combinedValue fun _ _ => rfl, h.same State.k fun _ _ => rfl,
    hinv.same State.iq fun _ _ => rfl, hinv.same State.ir fun _ _ => rfl]
  exact complete_differFrom
    (withField_differFrom (encodeInverted_buf_wf hs) (encodeInverted_buf_wf hu) hinv hk _ _) _

/-! ### What stands from `len` on -/

theorem keepsFrom_of_buf {n : Nat} {s t : State} (h : t.buf = s.buf) : KeepsFrom n s t :=
  fun a _ => by rw [h]

/-- The field lies below `len` (R33). -/
theorem encodeAnswer_keepsFrom {s : State} (hs : Memory.wf s.buf) (h : LegalArgs s.cap.val s.len.toInt s.k.toInt)
    (hk : 0 < s.k.toInt) : KeepsFrom s.len.toInt.toNat s (encodeAnswer s) := by
  intro a ha
  obtain ⟨hadjacent, hinside, -⟩ := field_indices (len := s.len.toInt) hk (by omega)
  rw [encodeAnswer_read hs hk, if_neg (by omega), if_neg (by omega)]

/-- Settles O44: each of the three answers carries the difference on, and no store reaches an octet from `len` on. -/
theorem octetsBeyondLenPlayNoPart : Obligations.OctetsBeyondLenPlayNoPart := by
  intro s u i hi ⟨hs, _⟩ ⟨hu, _⟩ hlegal hu' hagree
  have hdiff : DifferFrom s.len.toInt.toNat s u := ⟨⟨u.buf, hu'⟩, hagree⟩
  obtain ⟨t, v, ht, hv, ⟨⟨m, rfl⟩, hbelow⟩, hkeep, hkeep'⟩ : ∃ t v, exec i s = .next t ∧ exec i u = .next v ∧
      DifferFrom s.len.toInt.toNat t v ∧ KeepsFrom s.len.toInt.toNat s t ∧ KeepsFrom s.len.toInt.toNat u v := by
    obtain ⟨m, rfl⟩ := hdiff.1
    obtain rfl | rfl := hi
    · obtain hk0 | hkpos : s.k.toInt = 0 ∨ 0 < s.k.toInt := by omega
      · exact ⟨_, _, execEncode_sum hlegal hk0, execEncode_sum hlegal hk0, sumAnswer_differFrom hdiff,
          keepsFrom_of_buf (sumAnswer_buf _), keepsFrom_of_buf (sumAnswer_buf _)⟩
      · exact ⟨_, _, execEncode_field hlegal hkpos, execEncode_field hlegal hkpos,
          encodeAnswer_differFrom hs hu hdiff hkpos, encodeAnswer_keepsFrom hs hlegal hkpos,
          encodeAnswer_keepsFrom hu hlegal hkpos⟩
    · exact ⟨_, _, execVerify_legal hlegal, execVerify_legal hlegal, verifyAnswer_differFrom hdiff,
        keepsFrom_of_buf (verifyAnswer_buf _), keepsFrom_of_buf (verifyAnswer_buf _)⟩
  exact ⟨t, _, ht, hv, rfl, hbelow, hkeep, hkeep'⟩

end Sys2Proof.Machine
end

section
/-! SUPPORT. The decoder's fields under the mask of the opcode table, and the four forms of an AOP word. -/

namespace Sys2Proof

/-- The octet field is the word's low eight bits (R50). -/
theorem aopOctet_toNat (w : AopWord) : (aopOctet w).toNat = w.toNat % 256 := by
  simp [aopOctet]

/-- Under the mask `0x300` a word keeps its `aop` field, and the octet field is 0 (R50, R61). -/
theorem aopWord_and_mask (w : AopWord) : w &&& 0x300 = aopWord (aopField w) 0 := by
  revert w; decide +kernel

theorem aopWord_zero_inj {a b : BitVec 2} : aopWord a 0 = aopWord b 0 ↔ a = b :=
  ⟨fun h => by simpa only [aopField_aopWord] using congrArg aopField h, congrArg (aopWord · 0)⟩

/-- Match and mask of a row of the AOP format: the field `aop` is the row's (R61). -/
theorem and_mask_eq_aopWord_iff (w : AopWord) (a : BitVec 2) : w &&& 0x300 = aopWord a 0 ↔ aopField w = a := by
  rw [aopWord_and_mask, aopWord_zero_inj]

/-- The field `aop` selects the micro-operation (R61). -/
theorem decodeAop_eq_iff (w : AopWord) (i : Instr) : decodeAop w = i ↔
    (i = .aHold ∧ aopField w = 0b00) ∨ (i = .aClr ∧ aopField w = 0b01) ∨
    (i = .aAbs (aopOctet w) ∧ aopField w = 0b10) ∨ (i = .aRed ∧ aopField w = 0b11) := by
  unfold decodeAop
  have hcases : ∀ f : BitVec 2, f = 0b00 ∨ f = 0b01 ∨ f = 0b10 ∨ f = 0b11 := by decide
  obtain h | h | h | h := hcases (aopField w) <;> simp [h, eq_comm]

/-- The one bit of an IEN word selects the micro-operation (R62). -/
theorem decodeIen_eq_iff (w : IenWord) (i : Instr) :
    decodeIen w = i ↔ (i = .iHold ∧ w = 0) ∨ (i = .iInv ∧ w = 1) := by
  unfold decodeIen
  have hcases : ∀ w : IenWord, w = 0 ∨ w = 1 := by decide
  obtain rfl | rfl := hcases w <;> simp [eq_comm]

/-- Only the two command words decode (R51, R52). -/
theorem decodeCmd_eq_ok_iff (w : Word) (i : Instr) :
    decodeCmd w = .ok i ↔ (i = .encode ∧ w = encodeCommand) ∨ (i = .verify ∧ w = verifyCommand) := by
  have hne : encodeCommand ≠ verifyCommand := by decide
  obtain ⟨rfl, h⟩ | ⟨rfl, h⟩ | ⟨h1, h2, h⟩ := decodeCmd_cases w
  · simp [h, hne, eq_comm]
  · simp [h, hne.symm, eq_comm]
  · simp [h, h1, h2]

end Sys2Proof
end

section
/-! PROOFS. Which words are which instruction, and what every other command word does. -/

namespace Sys2Proof.Machine

/-- Settles O2: format by format, the decoder's field tests are the table's tests by match and mask. -/
theorem decodeMatchesOpcodeTable : Obligations.DecodeMatchesOpcodeTable := by
  refine ⟨fun w i => decodeCmd_eq_ok_iff w i, fun w i => ?_, fun w i => ?_⟩
  · have hmask := and_mask_eq_aopWord_iff w
    have hoctet (b : Octet) : b = aopOctet w ↔ b.toNat = w.toNat % 256 := by
      rw [← aopOctet_toNat, BitVec.toNat_inj]
    simp only [decode, Except.ok.injEq, decodeAop_eq_iff, ← hmask, ← hoctet]
    have habs : (i = .aAbs (aopOctet w) ∧ w &&& 0x300 = 0x200) ↔
        ∃ b : Octet, i = .aAbs b ∧ w &&& 0x300 = 0x200 ∧ b = aopOctet w :=
      ⟨fun ⟨hi, hw⟩ => ⟨_, hi, hw, rfl⟩, fun ⟨_, hi, hw, hb⟩ => ⟨hb ▸ hi, hw⟩⟩
    exact or_congr Iff.rfl (or_congr Iff.rfl (or_congr habs Iff.rfl))
  · simp only [decode, Except.ok.injEq, decodeIen_eq_iff]

/-- Settles O13: the word does not decode, and IllegalCommand writes STATUS and RESULT alone. -/
theorem illegalCommandTakesException : Obligations.IllegalCommandTakesException := by
  intro s w hencode hverify
  exact ⟨_, _, (runControlWord_error (cw := .cmd w) (decodeCmd_illegal hencode hverify) s).trans
    (congrArg Host.Outcome.next (raise_eq .illegalCommand s))⟩

end Sys2Proof.Machine
end

section
/-! PROOFS. VERIFY's whole answer on legal arguments. -/

namespace Sys2Proof.Machine

/-- The end of an operation writes STATUS and RESULT, and nothing else (R117). -/
theorem complete_eq (w : Word) (s : State) : complete w s = { s with status := 0, result := w } := rfl

/-- Settles O32: the state after ACCUMULATE is known, and VERIFY ends the operation with the verdict on its sums. -/
theorem verifyAccumulatesAndReportsValid : Obligations.VerifyAccumulatesAndReportsValid := by
  intro s h
  refine ⟨accumulatedLen s, accumulate_eq (by omega), accumulatedLen_buf s, rfl, rfl, ?_⟩
  rw [execVerify_legal h, verifyAnswer, complete_eq, verdictWord_eq]

end Sys2Proof.Machine
end

section
/-! PROOFS. Every step keeps the invariant. -/

namespace Sys2Proof.Machine

/-! ### The results an operation writes -/

/-- The combined value of reduced sums is a legal RESULT (R57). -/
theorem combinedValue_resultLegal {s : State} (h0 : s.c0.toNat ≤ 254) (h1 : s.c1.toNat ≤ 254) :
    resultLegal (combinedValue s) := by
  rw [resultLegal, combinedValue_toNat h0 h1]
  omega

/-- The verdict, 0 or 1, is a legal RESULT (R59). -/
theorem verdictWord_resultLegal (s : State) : resultLegal (verdictWord s) := by
  rw [verdictWord_eq]
  split <;> decide

theorem accumulatedLen_combinedValue_resultLegal (s : State) : resultLegal (combinedValue (accumulatedLen s)) := by
  apply combinedValue_resultLegal
  · rw [accumulatedLen, accumulated_c0_toNat]; omega
  · rw [accumulatedLen, accumulated_c1_toNat]; omega

/-! ### The buffer an operation leaves -/

/-- The form of the buffer depends on its content and the capacity alone. -/
theorem State.wf_of_buf {s t : State} (h : s.wf) (hcap : t.cap = s.cap) (hbuf : t.buf = s.buf) : t.wf := by
  rw [State.wf, hcap, hbuf]
  exact h

/-- Storing a field that lies inside the buffer keeps the buffer's form. -/
theorem withField_wf {s : State} (h : s.wf) {k : Int} (h0 : fieldFirst k < s.cap.val) (h1 : fieldSecond k < s.cap.val)
    (a b : Octet) : (withField k a b s).wf :=
  State.wf_write (State.wf_write h h0 a) h1 b

/-! ### The answers of the operations -/

/-- An operation that raised nothing and ends with a legal RESULT leaves the invariant (R55, R117). -/
theorem complete_inv {s : State} {w : Word} (h : s.wf) (hw : resultLegal w) : (complete w s).Inv :=
  ⟨h, by rw [complete_status]; decide, fun _ => hw⟩

theorem accumulatedLen_wf {s : State} (h : s.wf) : (accumulatedLen s).wf :=
  State.wf_of_buf h (accumulated_cap _ s) (accumulatedLen_buf s)

theorem verifyAnswer_inv {s : State} (h : s.wf) : (verifyAnswer s).Inv :=
  complete_inv (accumulatedLen_wf h) (verdictWord_resultLegal _)

theorem sumAnswer_inv {s : State} (h : s.wf) : (sumAnswer s).Inv :=
  complete_inv (accumulatedLen_wf h) (accumulatedLen_combinedValue_resultLegal s)

/-- Both stores of ENCODE lie inside the buffer, as the field of legal arguments does (R41). -/
theorem encodeAnswer_inv {s : State} (h : s.wf) (hlegal : LegalArgs s.cap.val s.len.toInt s.k.toInt)
    (hk : 0 < s.k.toInt) : (encodeAnswer s).Inv := by
  obtain ⟨hsecond, hinside, -⟩ := field_indices (len := s.len.toInt) hk (by omega)
  have h0 : fieldFirst s.k.toInt < s.cap.val := by omega
  have h1 : fieldSecond s.k.toInt < s.cap.val := by omega
  have hzeroed : (encodeAccumulated s).wf := accumulatedLen_wf (withField_wf h h0 h1 0 0)
  have hinverted : (encodeInverted s).wf := State.wf_of_buf hzeroed rfl (invert_buf _ _ _)
  exact complete_inv (withField_wf hinverted h0 h1 _ _) (accumulatedLen_combinedValue_resultLegal _)

/-! ### Instructions, control words, inputs -/

/-- The invariant speaks of the buffer, the capacity, STATUS and RESULT alone. -/
theorem State.Inv.of_same {s t : State} (h : s.Inv) (hcap : t.cap = s.cap) (hbuf : t.buf = s.buf)
    (hstatus : t.status = s.status) (hresult : t.result = s.result) : t.Inv := by
  obtain ⟨hwf, hlegal⟩ := h
  refine ⟨State.wf_of_buf hwf hcap hbuf, ?_⟩
  rw [hstatus, hresult]
  exact hlegal

/-- Every instruction answers a state that meets the invariant: the micro-operations touch nothing it speaks of. -/
theorem exec_inv (i : Instr) {s : State} (h : s.Inv) : ∃ t, exec i s = .next t ∧ t.Inv := by
  have hwf : s.wf := h.1
  cases i with
  | encode =>
    obtain ⟨c, -, he⟩ | ⟨-, -, he⟩ | ⟨hlegal, hk, he⟩ := execEncode_cases s
    · exact ⟨_, he, raise_inv _ hwf⟩
    · exact ⟨_, he, sumAnswer_inv hwf⟩
    · exact ⟨_, he, encodeAnswer_inv hwf hlegal hk⟩
  | verify =>
    obtain ⟨c, -, he⟩ | ⟨-, he⟩ := execVerify_cases s
    · exact ⟨_, he, raise_inv _ hwf⟩
    · exact ⟨_, he, verifyAnswer_inv hwf⟩
  | aHold => exact ⟨s, rfl, h⟩
  | aClr => exact ⟨clearSums s, rfl, h.of_same rfl rfl rfl rfl⟩
  | aAbs b => exact ⟨absorb b s, rfl, h.of_same rfl rfl rfl rfl⟩
  | aRed => exact ⟨reduceSums s, rfl, h.of_same rfl rfl rfl rfl⟩
  | iHold => exact ⟨s, rfl, h⟩
  | iInv => exact ⟨_, rfl, h.of_same rfl rfl rfl rfl⟩

theorem runControlWord_inv (cw : ControlWord) {s : State} (h : s.Inv) :
    ∃ t, runControlWord cw s = .next t ∧ t.Inv := by
  cases hd : decode cw with
  | ok i => rw [runControlWord_ok hd]; exact exec_inv i h
  | error e => exact ⟨_, runControlWord_error hd s, raise_inv _ h.1⟩

/-- The reset event leaves the buffer, and STATUS and RESULT 0 (R26, R170). -/
theorem resetEvent_inv {s : State} (h : s.wf) : (resetEvent s).Inv :=
  ⟨h, show statusLegal 0 ∧ (statusCode 0 = 0 → resultLegal 0) by decide⟩

/-- A host write of an octet that exists keeps the invariant (R34). -/
theorem setBuf_write_inv {s : State} (h : s.Inv) {i : Nat} (hi : i < s.cap.val) (b : Octet) :
    (s.setBuf (Memory.write s.buf i b)).Inv := by
  obtain ⟨hwf, hlegal⟩ := h
  exact ⟨State.wf_write hwf hi b, hlegal⟩

theorem takeInput_inv {inp : Input} {s t : State} (h : s.Inv) (ht : takeInput inp s = .next t) : t.Inv := by
  obtain ⟨w, e⟩ | ⟨w, e⟩ | e | ⟨cw, e⟩ | ⟨w, e⟩ | ⟨i, b, hi, e⟩ | e | e := takeInput_cases inp s <;> rw [e] at ht
  case inr.inr.inr.inl =>
    obtain ⟨t', ht', hinv⟩ := runControlWord_inv cw h
    obtain rfl : t' = t := by rw [ht'] at ht; injection ht
    exact hinv
  all_goals cases ht
  · exact h.of_same rfl rfl rfl rfl
  · exact h.of_same rfl rfl rfl rfl
  · exact h
  · exact h.of_same rfl rfl rfl rfl
  · exact setBuf_write_inv h hi b
  · exact resetEvent_inv h.1

/-- Settles O49: an idle step changes nothing; any other takes one input, from a state that meets the invariant too. -/
theorem stepKeepsInvariant : Obligations.StepKeepsInvariant := by
  intro s t h ht
  cases hp : s.pending with
  | nil =>
    obtain rfl : s = t := by simpa only [step, hp, Host.Outcome.next.injEq] using ht
    exact h
  | cons inp rest =>
    have hrest : (s.setPending rest).Inv := h.of_same rfl rfl rfl rfl
    rw [step_of_pending hp] at ht
    exact takeInput_inv hrest ht

end Sys2Proof.Machine
end

section
/-! SUPPORT. The reference sums from the back and of equal octets, exact sums inside a segment, and reducing at other places. -/

namespace Sys2Proof.Machine

/-! ### The reference sums, one octet at a time from the back -/

theorem plainSum_succ (f : Nat → Nat) (n : Nat) : plainSum f (n + 1) = plainSum f n + f n :=
  Finset.sum_range_succ f n

/-- A further octet raises the weight of every octet so far, and its own, by one. -/
theorem weightedSum_succ (f : Nat → Nat) (n : Nat) : weightedSum f (n + 1) = weightedSum f n + plainSum f (n + 1) := by
  rw [weightedSum_add, one_mul, plainSum_succ, add_assoc]
  simp [weightedSum]

theorem plainSum_const {f : Nat → Nat} {c n : Nat} (h : ∀ i, i < n → f i = c) : plainSum f n = n * c :=
  (Finset.sum_congr rfl fun i hi => h i (Finset.mem_range.1 hi)).trans (by simp)

/-- The weights of `n` octets add up to `n * (n + 1) / 2`. -/
theorem weightedSum_const {f : Nat → Nat} {c n : Nat} (h : ∀ i, i < n → f i = c) :
    2 * weightedSum f n = c * (n * (n + 1)) := by
  induction n with
  | zero => rfl
  | succ n ih =>
    have hn : 2 * weightedSum f n = c * (n * (n + 1)) := ih fun i hi => h i (by omega)
    rw [weightedSum_succ, plainSum_const h, mul_add, hn]
    ring

/-! ### Inside a segment -/

/-- From reduced sums, up to a whole segment of octets is absorbed with exact sums; the sums and `IDX` alone change
(R80). -/
theorem absorbOctets_exact {s : State} {j : Nat} (h0 : s.c0.toNat ≤ 254) (h1 : s.c1.toNat ≤ 254) (hj : j ≤ 4102)
    (hidx : s.idx.toNat + j ≤ s.cap.val) :
    ∃ a b e, absorbOctets j s = .ok ((s.setSums a b).setIdx e) ∧ e.toNat = s.idx.toNat + j ∧
      a.toNat = s.c0.toNat + plainSum (fun i => octetAt s (s.idx.toNat + i)) j ∧
      b.toNat = s.c1.toNat + j * s.c0.toNat + weightedSum (fun i => octetAt s (s.idx.toNat + i)) j := by
  obtain ⟨f0, f1⟩ := segment_fits h0 h1 hj
  have hcap : s.cap.val < 2147483648 := s.cap.isLt
  have hplain := plainSum_le (fun i => octetAt_le s (s.idx.toNat + i)) j
  have hweighted := weightedSum_le (fun i => octetAt_le s (s.idx.toNat + i)) j
  exact ⟨_, _, _, absorbOctets_eq hidx f0 f1, toNat_ofNat_word (by omega), toNat_ofNat_word (by omega),
    toNat_ofNat_word (by omega)⟩

/-! ### Reducing after every octet -/

/-- One octet absorbed into a pair of sums that are both reduced at once. -/
def absorbReduced (octet : Nat → Nat) (c : Nat × Nat) (i : Nat) : Nat × Nat :=
  ((c.1 + octet i) % 255, (c.2 + (c.1 + octet i) % 255) % 255)

theorem absorbReduced_sums (octet : Nat → Nat) (n : Nat) :
    absorbReduced octet (plainSum octet n % 255, weightedSum octet n % 255) n =
      (plainSum octet (n + 1) % 255, weightedSum octet (n + 1) % 255) := by
  simp only [absorbReduced, Nat.mod_add_mod, weightedSum_succ, plainSum_succ, Nat.add_mod_mod]

/-- The fold that reduces after every octet leaves the remainders of the exact sums (R81). -/
theorem foldl_absorbReduced (octet : Nat → Nat) (n : Nat) :
    (List.range n).foldl (absorbReduced octet) (0, 0) = (plainSum octet n % 255, weightedSum octet n % 255) := by
  induction n with
  | zero => rfl
  | succ n ih => rw [List.range_succ, List.foldl_concat, ih, absorbReduced_sums]

/-! ### Reducing twice -/

/-- Sums that are reduced already stay as they are (R74). -/
theorem reduceSums_idem (s : State) : reduceSums (reduceSums s) = reduceSums s := by
  have h0 : (reduceSums (reduceSums s)).c0 = (reduceSums s).c0 := BitVec.eq_of_toNat_eq (by simp)
  have h1 : (reduceSums (reduceSums s)).c1 = (reduceSums s).c1 := BitVec.eq_of_toNat_eq (by simp)
  calc reduceSums (reduceSums s)
      = s.setSums (reduceSums (reduceSums s)).c0 (reduceSums (reduceSums s)).c1 := rfl
    _ = reduceSums s := by rw [h0, h1]; rfl

end Sys2Proof.Machine
end

section
/-! PROOFS. The statements about the accumulator: its micro-operations, the bounds inside a segment, and ACCUMULATE. -/

namespace Sys2Proof.Machine

/-- Settles O23: the sums are exact, the reference sums have their bounds, and octets that are all 255 reach them. -/
theorem segmentSumsStayInRegisters : Obligations.SegmentSumsStayInRegisters := by
  intro s j h0 h1 hj hidx
  obtain ⟨a, b, e, habs, he, ha, hb⟩ := absorbOctets_exact h0 h1 hj hidx
  refine ⟨_, habs, rfl, he, ?_, ?_, ?_⟩
  · have hplain := plainSum_le (fun i => octetAt_le s (s.idx.toNat + i)) j
    show a.toNat ≤ _
    omega
  · have hweighted := weightedSum_le (fun i => octetAt_le s (s.idx.toNat + i)) j
    have hcarry : j * s.c0.toNat ≤ j * 254 := Nat.mul_le_mul_left j h0
    show b.toNat ≤ _
    rw [mul_assoc 255]
    omega
  · rintro rfl hc0 hc1 hfull
    have hplain := plainSum_const hfull
    have hweighted := weightedSum_const hfull
    have hstart : s.c0.toNat = 254 ∧ s.c1.toNat = 254 := by rw [hc0, hc1]; exact ⟨rfl, rfl⟩
    show a.toNat = _ ∧ b.toNat = _
    omega

/-- Settles O24: the state ACCUMULATE leaves is known. -/
theorem accumulateClosedForm : Obligations.AccumulateClosedForm := by
  intro s len hlen
  refine ⟨accumulated len s, accumulate_eq hlen, rfl, accumulated_c0_toNat len s, accumulated_c1_toNat len s,
    summedTo_idx_toNat hlen, ?_⟩
  show (if 0 < len then BitVec.ofNat 32 len else s.segend) = _
  simp only [Nat.pos_iff_ne_zero, ite_not]

/-- Settles O25: both are the remainders of the exact sums. -/
theorem segmentsAreInvisible : Obligations.SegmentsAreInvisible := by
  intro s len hlen
  refine ⟨accumulated len s, accumulate_eq hlen, ?_⟩
  rw [accumulated_c0_toNat, accumulated_c1_toNat]
  exact (foldl_absorbReduced (octetAt s) len).symm

/-- Settles O18: each answers its own state. -/
theorem holdsChangeNothing : Obligations.HoldsChangeNothing := fun _ => ⟨rfl, rfl⟩

/-- Settles O19: A.CLR writes the two sums. -/
theorem clearZeroesBothSums : Obligations.ClearZeroesBothSums := fun _ => rfl

/-- Settles O20: both exact sums fit, so that they are latched and no free value is drawn. -/
theorem absorbAddsOctetThenSum : Obligations.AbsorbAddsOctetThenSum := fun _ _ h0 h1 =>
  congrArg Host.Outcome.next (absorb_fits h0 h1)

/-- Settles O22: reduced sums are their own remainders. -/
theorem reduceTakesModulo255 : Obligations.ReduceTakesModulo255 := fun s =>
  ⟨rfl, congrArg Host.Outcome.next (reduceSums_idem s)⟩

/-- Settles O47: each micro-operation writes the registers of its own block, and the count of free values where a
result does not fit. -/
theorem microOperationsStayInTheirBlock : Obligations.MicroOperationsStayInTheirBlock := by
  constructor
  · rintro i s (rfl | rfl | rfl | ⟨b, rfl⟩)
    · exact ⟨s.c0, s.c1, s.freeCount, rfl⟩
    · exact ⟨0, 0, s.freeCount, rfl⟩
    · exact ⟨(reduceSums s).c0, (reduceSums s).c1, s.freeCount, rfl⟩
    · exact ⟨_, _, _, congrArg Host.Outcome.next (absorb_frame b s)⟩
  · rintro i s (rfl | rfl)
    · exact ⟨s.iq, s.ir, s.freeCount, rfl⟩
    · exact ⟨_, _, _, congrArg Host.Outcome.next (invert_frame (operandLen s) (operandK s) s)⟩

end Sys2Proof.Machine
end

section
/-! SUPPORT. The inverter's pair: which pairs of octets complete both sums, what is stored for a zero residue, and the
reference sums with one octet replaced. -/

namespace Sys2Proof.Machine

/-! ### The two formulas -/

/-- A residue of 0 gives 255, the only multiple of 255 in the range of `iq` (R99). -/
theorem iqOf_eq_255 {len k c0 c1 : Int} (h : ((len - k) * c0 - c1) % 255 = 0) : iqOf len k c0 c1 = 255 := by
  have hrange := iqOf_range len k c0 c1
  have hmod := iqOf_mod len k c0 c1
  omega

/-- A residue of 0 gives 255, the only multiple of 255 in the range of `ir` (R99). -/
theorem irOf_eq_255 {c0 iq : Int} (h0 : 0 ≤ c0) (h1 : c0 ≤ 254) (h2 : 1 ≤ iq) (h3 : iq ≤ 255)
    (h : (c0 + iq) % 255 = 0) : irOf c0 iq = 255 := by
  have hrange := irOf_range h0 h1 h2 h3
  have hmod := irOf_mod c0 iq
  omega

/-- The truncating remainder is the floored one, or lies 255 below it, where the threshold of `iq` raises it (R96). -/
theorem raised_tmod_eq (x : Int) :
    (if Int.tmod x 255 ≤ 0 then Int.tmod x 255 + 255 else Int.tmod x 255) =
      if x % 255 ≤ 0 then x % 255 + 255 else x % 255 := by
  obtain hx | hx : 0 ≤ x ∨ x < 0 := by omega
  · rw [Int.tmod_eq_emod_of_nonneg hx]
  · have htmod : Int.tmod x 255 = -(-x % 255) := by
      rw [← Int.tmod_eq_emod_of_nonneg (by omega), Int.neg_tmod, neg_neg]
    split_ifs <;> omega

/-- Only the residue of `(len - k) * c0 - c1` counts for `iq`. -/
theorem iqOf_congr {len k c0 c1 len' k' c0' c1' : Int}
    (h : (len - k) * c0 - c1 ≡ (len' - k') * c0' - c1' [ZMOD 255]) : iqOf len k c0 c1 = iqOf len' k' c0' c1' := by
  rw [iqOf_eq, iqOf_eq, h]

/-- The pairs that complete both sums, the first of the pair with weight `len - k + 1`, are those congruent to the
inverter's (R97). -/
theorem sums_zero_iff_check_octets {len k c0 c1 a b : Int} :
    (255 ∣ c0 + a + b ∧ 255 ∣ c1 + (len - k + 1) * a + (len - k) * b) ↔
      a ≡ iqOf len k c0 c1 [ZMOD 255] ∧ b ≡ irOf c0 (iqOf len k c0 c1) [ZMOD 255] := by
  have hiq : iqOf len k c0 c1 ≡ (len - k) * c0 - c1 [ZMOD 255] := iqOf_mod len k c0 c1
  have hir : irOf c0 (iqOf len k c0 c1) ≡ -c0 - iqOf len k c0 c1 [ZMOD 255] := irOf_mod c0 _
  have hweighted : c1 + (len - k + 1) * a + (len - k) * b =
      (len - k) * (c0 + a + b) - ((len - k) * c0 - c1 - a) := by ring
  have hfirst : 255 ∣ c0 + a + b → (255 ∣ c1 + (len - k + 1) * a + (len - k) * b ↔
      a ≡ iqOf len k c0 c1 [ZMOD 255]) := fun hplain => by
    rw [hweighted, dvd_sub_right (hplain.mul_left _), ← Int.modEq_iff_dvd]
    exact ⟨fun h => h.trans hiq.symm, fun h => h.trans hiq⟩
  have hsecond : a ≡ iqOf len k c0 c1 [ZMOD 255] → (255 ∣ c0 + a + b ↔
      b ≡ irOf c0 (iqOf len k c0 c1) [ZMOD 255]) := fun ha => by
    simp only [Int.ModEq] at ha hir ⊢
    omega
  rw [and_congr_right hfirst, and_comm, and_congr_right hsecond]

/-! ### The octets latched and stored -/

/-- I.INV on a reduced `C0` latches the exact values of both formulas (R95). -/
theorem invert_octets_toNat {s : State} (len k : Int) (h : s.c0.toNat ≤ 254) :
    ((invert len k s).iq.toNat : Int) = iqOf len k s.c0.toNat s.c1.toNat ∧
      ((invert len k s).ir.toNat : Int) = irOf s.c0.toNat (iqOf len k s.c0.toNat s.c1.toNat) := by
  have hiq := iqOf_range len k s.c0.toNat s.c1.toNat
  have hir := irOf_range (c0 := s.c0.toNat) (by omega) (by omega) hiq.1 hiq.2
  rw [invert_fits len k h]
  exact ⟨toNat_ofInt_octet (by omega) hiq.2, toNat_ofInt_octet (by omega) hir.2⟩

@[simp] theorem encodeAnswer_c0 (s : State) : (encodeAnswer s).c0 = (encodeAccumulated s).c0 := rfl
@[simp] theorem encodeAnswer_c1 (s : State) : (encodeAnswer s).c1 = (encodeAccumulated s).c1 := rfl

theorem encodeAccumulated_c0_le (s : State) : (encodeAccumulated s).c0.toNat ≤ 254 := by
  rw [encodeAccumulated, accumulatedLen, accumulated_c0_toNat]
  omega

/-- ENCODE with `k > 0` leaves in the field the values of both formulas on the sums it ends with (R111). -/
theorem encodeAnswer_field {s : State} (h : Memory.wf s.buf) (hk : 0 < s.k.toInt) :
    (octetAt (encodeAnswer s) (fieldFirst s.k.toInt) : Int) =
        iqOf s.len.toInt s.k.toInt (encodeAnswer s).c0.toNat (encodeAnswer s).c1.toNat ∧
      (octetAt (encodeAnswer s) (fieldSecond s.k.toInt) : Int) =
        irOf (encodeAnswer s).c0.toNat (octetAt (encodeAnswer s) (fieldFirst s.k.toInt)) := by
  obtain ⟨hiq, hir⟩ := invert_octets_toNat s.len.toInt s.k.toInt (encodeAccumulated_c0_le s)
  have hne : fieldSecond s.k.toInt ≠ fieldFirst s.k.toInt := by simp only [fieldFirst, fieldSecond]; omega
  rw [octetAt, octetAt, encodeAnswer_read h hk, encodeAnswer_read h hk, if_pos rfl, if_neg hne, if_pos rfl]
  exact ⟨hiq, hir.trans (congrArg _ hiq.symm)⟩

/-! ### The reference sums with one octet replaced -/

/-- Replacing the octet at `p` replaces its term of the sum. -/
theorem sum_mul_update (w f : Nat → Nat) {n p : Nat} (hp : p < n) (v : Nat) :
    (∑ i ∈ Finset.range n, w i * Function.update f p v i) + w p * f p =
      (∑ i ∈ Finset.range n, w i * f i) + w p * v := by
  have hmem : p ∈ Finset.range n := Finset.mem_range.2 hp
  have hrest : ∑ i ∈ (Finset.range n).erase p, w i * Function.update f p v i =
      ∑ i ∈ (Finset.range n).erase p, w i * f i :=
    Finset.sum_congr rfl fun i hi => by rw [Function.update_of_ne (Finset.ne_of_mem_erase hi)]
  rw [← Finset.add_sum_erase _ _ hmem, hrest, Function.update_self,
    ← Finset.add_sum_erase _ (fun i => w i * f i) hmem]
  omega

theorem plainSum_update (f : Nat → Nat) {n p : Nat} (hp : p < n) (v : Nat) :
    plainSum (Function.update f p v) n + f p = plainSum f n + v := by
  simpa only [plainSum, one_mul] using sum_mul_update (fun _ => 1) f hp v

theorem weightedSum_update (f : Nat → Nat) {n p : Nat} (hp : p < n) (v : Nat) :
    weightedSum (Function.update f p v) n + (n - p) * f p = weightedSum f n + (n - p) * v :=
  sum_mul_update (fun i => n - i) f hp v

/-- The sums of octets with a zeroed field filled by `a` and `b`. -/
theorem sums_fill_field {f : Nat → Nat} {len p : Nat} (hp : p + 1 < len) (h0 : f p = 0) (h1 : f (p + 1) = 0)
    (a b : Nat) :
    let filled := fun i => if i = p then a else if i = p + 1 then b else f i
    plainSum filled len = plainSum f len + a + b ∧
      weightedSum filled len = weightedSum f len + (len - p) * a + (len - (p + 1)) * b := by
  intro filled
  have hfilled : filled = Function.update (Function.update f (p + 1) b) p a := by
    funext i
    simp only [filled, Function.update_apply]
  have hnew : Function.update f (p + 1) b p = 0 := by rw [Function.update_of_ne (by omega), h0]
  have hplain := plainSum_update f hp b
  have hplain' := plainSum_update (Function.update f (p + 1) b) (n := len) (p := p) (by omega) a
  have hweighted := weightedSum_update f hp b
  have hweighted' := weightedSum_update (Function.update f (p + 1) b) (n := len) (p := p) (by omega) a
  rw [hnew] at hplain' hweighted'
  rw [h1] at hplain hweighted
  rw [hfilled]
  constructor <;> omega

end Sys2Proof.Machine
end

section
/-! PROOFS. The statements about the inverter: its formulas, the pair they give, and the octets ENCODE stores. -/

namespace Sys2Proof.Machine

/-- Settles O29: filling the field adds `a + b` to the plain sum, and each octet times its weight to the other; a pair
that completes both is congruent to the inverter's. -/
theorem checkOctetsUniqueModulo255 : Obligations.CheckOctetsUniqueModulo255 := by
  intro octet len p a b hp h0 h1 c0 c1 filled hplain hweighted
  obtain ⟨hsum, hsum'⟩ := sums_fill_field hp h0 h1 a b
  refine sums_zero_iff_check_octets.1 ⟨?_, ?_⟩
  · show (255 : Int) ∣ (plainSum octet len % 255 : Nat) + a + b
    have hfull : (plainSum octet len + a + b) % 255 = 0 := hsum ▸ hplain
    omega
  · show (255 : Int) ∣ (weightedSum octet len % 255 : Nat) + (len - (p + 1) + 1) * a + (len - (p + 1)) * b
    obtain ⟨d, rfl⟩ : ∃ d, len = p + 1 + d := ⟨len - (p + 1), by omega⟩
    have hfull : (weightedSum octet (p + 1 + d) + (d + 1) * a + d * b) % 255 = 0 := by
      rw [show p + 1 + d - p = d + 1 by omega, Nat.add_sub_cancel_left] at hsum'
      exact hsum' ▸ hweighted
    push_cast
    rw [show (p : Int) + 1 + d - (p + 1) = d by ring]
    norm_cast
    omega

/-- Settles O36: the field holds the values of both formulas, each at least 1, and 255 where its residue is 0. -/
theorem storedOctetsAreNeverZero : Obligations.StoredOctetsAreNeverZero := by
  intro s ⟨hwf, _⟩ hlegal hk
  obtain ⟨hfirst, hsecond⟩ := encodeAnswer_field hwf hk
  have hc0 : (encodeAnswer s).c0.toNat ≤ 254 := encodeAccumulated_c0_le s
  obtain ⟨hlow, hhigh⟩ := iqOf_range s.len.toInt s.k.toInt (encodeAnswer s).c0.toNat (encodeAnswer s).c1.toNat
  rw [← hfirst] at hlow hhigh
  have hir := irOf_range (by omega) (Int.ofNat_le.2 hc0) hlow hhigh
  rw [← hsecond] at hir
  refine ⟨encodeAnswer s, execEncode_field hlegal hk, by omega, by omega, fun hzero => ?_, fun hzero => ?_⟩
  · rw [iqOf_eq_255 hzero] at hfirst
    omega
  · rw [irOf_eq_255 (by omega) (Int.ofNat_le.2 hc0) hlow hhigh (by omega)] at hsecond
    omega

/-- Settles O26: on a reduced `C0` both formulas fit their registers. -/
theorem invertLatchesBothFormulas : Obligations.InvertLatchesBothFormulas := by
  intro s x iq ir h0 _ hx hiq hir
  obtain rfl : iq = iqOf s.len.toInt s.k.toInt s.c0.toNat s.c1.toNat := by rw [hiq, hx, iqOf_eq]
  obtain rfl : ir = irOf s.c0.toNat _ := hir
  obtain ⟨hlow, hhigh⟩ := iqOf_range s.len.toInt s.k.toInt s.c0.toNat s.c1.toNat
  obtain ⟨hlow', hhigh'⟩ := irOf_range (by omega) (Int.ofNat_le.2 h0) hlow hhigh
  exact ⟨hlow, hhigh, hlow', hhigh', congrArg Host.Outcome.next (invert_fits s.len.toInt s.k.toInt h0)⟩

/-- Settles O28: the threshold raises what the truncating remainder leaves below 1, and only the residue of
`len - k` counts. -/
theorem iqIndependentOfModConvention : Obligations.IqIndependentOfModConvention := by
  intro len k c0 c1
  refine ⟨?_, iqOf_congr ?_⟩
  · rw [raised_tmod_eq, iqOf_eq]
  · rw [sub_zero]
    exact ((Int.mod_modEq (len - k) 255).symm.mul_right c0).sub_right c1

end Sys2Proof.Machine
end

section
/-! SUPPORT. The answers of the operations in terms of the octets: the sums each is computed from, and their frames. -/

namespace Sys2Proof.Machine

/-! ### Frames -/

/-- I.INV in ENCODE runs on reduced sums: it writes the two octets and draws nothing (R95). -/
theorem encodeInverted_eq (s : State) :
    encodeInverted s = (encodeAccumulated s).setOctets (encodeInverted s).iq (encodeInverted s).ir := by
  rw [encodeInverted, invert_fits _ _ (encodeAccumulated_c0_le s)]
  rfl

theorem accumulatedLen_freeCount (s : State) : (accumulatedLen s).freeCount = s.freeCount := rfl
theorem complete_freeCount (w : Word) (s : State) : (complete w s).freeCount = s.freeCount := rfl
theorem withField_freeCount (k : Int) (a b : Octet) (s : State) : (withField k a b s).freeCount = s.freeCount := rfl

theorem verifyAnswer_freeCount (s : State) : (verifyAnswer s).freeCount = s.freeCount :=
  (complete_freeCount _ _).trans (accumulatedLen_freeCount s)

theorem sumAnswer_freeCount (s : State) : (sumAnswer s).freeCount = s.freeCount :=
  (complete_freeCount _ _).trans (accumulatedLen_freeCount s)

theorem encodeAnswer_freeCount (s : State) : (encodeAnswer s).freeCount = s.freeCount := by
  rw [encodeAnswer, complete_freeCount, withField_freeCount, encodeInverted_eq, State.setOctets_freeCount,
    encodeAccumulated, accumulatedLen_freeCount, withField_freeCount]

/-! ### Sums -/

/-- The combined value of reduced sums as a word (R57, R60). -/
theorem combinedValue_eq {s : State} (h0 : s.c0.toNat ≤ 254) (h1 : s.c1.toNat ≤ 254) :
    combinedValue s = BitVec.ofNat 32 (s.c1.toNat * 256 + s.c0.toNat) := by
  rw [← combinedValue_toNat h0 h1, BitVec.ofNat_toNat, BitVec.setWidth_eq]

theorem accumulatedLen_c0_toNat (s : State) :
    (accumulatedLen s).c0.toNat = plainSum (octetAt s) s.len.toInt.toNat % 255 := accumulated_c0_toNat _ s

theorem accumulatedLen_c1_toNat (s : State) :
    (accumulatedLen s).c1.toNat = weightedSum (octetAt s) s.len.toInt.toNat % 255 := accumulated_c1_toNat _ s

theorem accumulatedLen_reduced (s : State) :
    (accumulatedLen s).c0.toNat ≤ 254 ∧ (accumulatedLen s).c1.toNat ≤ 254 := by
  rw [accumulatedLen_c0_toNat, accumulatedLen_c1_toNat]
  omega

/-- Zeroing the field of a `k > 0` (R112): what the buffer then holds. -/
theorem withField_zero_read {s : State} (h : Memory.wf s.buf) {k : Int} (hk : 0 < k) (i : Nat) :
    Memory.read (withField k 0 0 s).buf i =
      if i = fieldFirst k ∨ i = fieldSecond k then 0 else Memory.read s.buf i := by
  rw [withField_read h hk, ite_or]

/-- The buffer with the field zeroed shows the reference's zeroed octets (R112). -/
theorem octetAt_withField_zero {s : State} (h : Memory.wf s.buf) {k : Int} (hk : 0 < k) :
    octetAt (withField k 0 0 s) = zeroedField k (octetAt s) := by
  funext i
  simp only [octetAt, zeroedField, withField_zero_read h hk, hk, true_and]
  split_ifs <;> rfl

/-- `k = 0` names no field (R33). -/
theorem zeroedField_zero (f : Nat → Nat) : zeroedField 0 f = f := by
  funext i
  simp [zeroedField]

/-! ### The verdict -/

/-- Both reference sums of the first `LEN` octets are multiples of 255 (R20, R123). -/
abbrev SumsVanish (s : State) : Prop :=
  plainSum (octetAt s) s.len.toInt.toNat % 255 = 0 ∧ weightedSum (octetAt s) s.len.toInt.toNat % 255 = 0

theorem accumulatedLen_sums_zero_iff (s : State) :
    (accumulatedLen s).c0 = 0 ∧ (accumulatedLen s).c1 = 0 ↔ SumsVanish s := by
  rw [SumsVanish, ← accumulatedLen_c0_toNat, ← accumulatedLen_c1_toNat]
  exact and_congr BitVec.toNat_inj.symm BitVec.toNat_inj.symm

/-- VERIFY's verdict in terms of the octets (R123). -/
theorem verifyAnswer_verdict (s : State) : (verifyAnswer s).result = if SumsVanish s then 1 else 0 := by
  simp only [verifyAnswer_result, verdictWord_eq, accumulatedLen_sums_zero_iff]

theorem verifyAnswer_result_eq_one_iff (s : State) : (verifyAnswer s).result = 1 ↔ SumsVanish s := by
  rw [verifyAnswer_verdict]
  split_ifs with h
  · exact iff_of_true rfl h
  · exact iff_of_false (by decide) h

theorem verifyAnswer_result_cases (s : State) : (verifyAnswer s).result = 1 ∨ (verifyAnswer s).result = 0 := by
  rw [verifyAnswer_verdict]
  split_ifs <;> simp

end Sys2Proof.Machine
end

section
/-! PROOFS. The whole answers of ENCODE and VERIFY on legal arguments, and their results against the reference. -/

namespace Sys2Proof.Machine

/-- Settles O15: the three answers on legal arguments end the operation well, and none draws a free value. -/
theorem legalArgumentsRaiseNothing : Obligations.LegalArgumentsRaiseNothing := by
  rintro s i (rfl | rfl) h
  · obtain hk | hk : s.k.toInt = 0 ∨ 0 < s.k.toInt := by omega
    · exact ⟨_, execEncode_sum h hk, sumAnswer_status s, sumAnswer_freeCount s⟩
    · exact ⟨_, execEncode_field h hk, encodeAnswer_status s, encodeAnswer_freeCount s⟩
  · exact ⟨_, execVerify_legal h, verifyAnswer_status s, verifyAnswer_freeCount s⟩

/-- Settles O30: `z` is the state with the field zeroed, `u` what ACCUMULATE leaves of it; I.INV on reduced sums latches
the exact values of both formulas. -/
theorem encodeZeroesAccumulatesInserts : Obligations.EncodeZeroesAccumulatesInserts := by
  rintro s _ _ hwf rfl rfl h hk
  obtain ⟨hsecond, hinside, -⟩ := field_indices (len := s.len.toInt) hk (by omega)
  obtain ⟨h0, h1⟩ := accumulatedLen_reduced (withField s.k.toInt 0 0 s)
  obtain ⟨hiq, hir⟩ := invert_octets_toNat s.len.toInt s.k.toInt (encodeAccumulated_c0_le s)
  refine ⟨withField s.k.toInt 0 0 s, encodeAccumulated s, encodeAnswer s, rfl,
    withField_wf hwf (by omega) (by omega) 0 0, withField_zero_read hwf.1 hk,
    accumulate_eq (s := withField s.k.toInt 0 0 s) ?_, execEncode_field h hk, ?_, hiq,
    hir.trans (congrArg _ hiq.symm), ?_, (encodeAnswer_inv hwf h hk).1, encodeAnswer_read hwf.1 hk⟩
  · show s.len.toInt.toNat ≤ s.cap.val
    omega
  · rw [encodeAnswer, encodeInverted_eq]
    rfl
  · rw [encodeAnswer_result]
    exact combinedValue_toNat h0 h1

/-- Settles O31: the state after ACCUMULATE is known, and SUM ends the operation with its combined value. -/
theorem sumAccumulatesAndWritesNoOctet : Obligations.SumAccumulatesAndWritesNoOctet := by
  intro s hk0 hlow hhigh
  have hk : s.k.toInt = 0 := by rw [hk0]; rfl
  obtain ⟨h0, h1⟩ := accumulatedLen_reduced s
  refine ⟨accumulatedLen s, accumulate_eq (by omega), accumulatedLen_buf s, rfl, rfl, ?_⟩
  rw [execEncode_sum ⟨hlow, hhigh, .inl hk⟩ hk, sumAnswer, complete_eq, combinedValue_eq h0 h1]

/-- Settles O33: the sums accumulated are the reference's, of the octets with the field zeroed where there is one. -/
theorem encodeResultMatchesReference : Obligations.EncodeResultMatchesReference := by
  intro s ⟨hwf, _⟩ h
  obtain hk | hk : s.k.toInt = 0 ∨ 0 < s.k.toInt := by omega
  · obtain ⟨h0, h1⟩ := accumulatedLen_reduced s
    refine ⟨_, execEncode_sum h hk, ?_⟩
    rw [sumAnswer_result, combinedValue_toNat h0 h1, accumulatedLen_c0_toNat, accumulatedLen_c1_toNat, hk,
      zeroedField_zero]
  · obtain ⟨h0, h1⟩ := accumulatedLen_reduced (withField s.k.toInt 0 0 s)
    refine ⟨_, execEncode_field h hk, ?_⟩
    rw [encodeAnswer_result, encodeAccumulated, combinedValue_toNat h0 h1, accumulatedLen_c0_toNat,
      accumulatedLen_c1_toNat, octetAt_withField_zero hwf hk]
    rfl

/-- Settles O34: the verdict is 1 exactly where both reference sums vanish modulo 255. -/
theorem verifyResultMatchesReference : Obligations.VerifyResultMatchesReference := fun s h =>
  ⟨_, execVerify_legal h, verifyAnswer_result_eq_one_iff s, verifyAnswer_result_cases s⟩

end Sys2Proof.Machine
end

section
/-! SUPPORT. Running an operation again: what ACCUMULATE, I.INV and the stores leave where they have run before. -/

namespace Sys2Proof.Machine

/-! ### The end of an operation, and the buffer replaced -/

@[simp] theorem complete_iq (w : Word) (s : State) : (complete w s).iq = s.iq := rfl
@[simp] theorem complete_ir (w : Word) (s : State) : (complete w s).ir = s.ir := rfl
theorem verdictWord_complete (w : Word) (s : State) : verdictWord (complete w s) = verdictWord s := rfl
theorem combinedValue_complete (w : Word) (s : State) : combinedValue (complete w s) = combinedValue s := rfl
theorem complete_complete (v w : Word) (s : State) : complete v (complete w s) = complete v s := rfl
theorem withField_complete (k : Int) (a b : Octet) (w : Word) (s : State) :
    withField k a b (complete w s) = complete w (withField k a b s) := rfl

theorem combinedValue_setOctets (a b : Octet) (s : State) : combinedValue (s.setOctets a b) = combinedValue s := rfl

/-- Two stores of a field leave the buffer that the second one leaves, and every register as it was. -/
theorem withField_withField_eq {k : Int} {a b c d : Octet} {s : State} {m : List Host.Cell}
    (h : (withField k a b (withField k c d s)).buf = m) : withField k a b (withField k c d s) = s.setBuf m := by
  rw [← h]
  rfl

theorem setBuf_self {s : State} {m : List Host.Cell} (h : s.buf = m) : s.setBuf m = s := by
  rw [← h]
  rfl

/-! ### ACCUMULATE again -/

@[simp] theorem accumulatedLen_len (s : State) : (accumulatedLen s).len = s.len := accumulated_len _ s

/-- ACCUMULATE changes the sums, `IDX` and, where there is an octet, `SEGEND` (R75). -/
theorem accumulatedLen_frame (s : State) :
    accumulatedLen s = ((s.setSegend (if 0 < s.len.toInt.toNat then BitVec.ofNat 32 s.len.toInt.toNat
      else s.segend)).setIdx (BitVec.ofNat 32 s.len.toInt.toNat)).setSums (accumulatedLen s).c0 (accumulatedLen s).c1 :=
  rfl

/-- ACCUMULATE changes nothing where it has just run. -/
theorem accumulatedLen_idem (s : State) : accumulatedLen (accumulatedLen s) = accumulatedLen s := by
  obtain ⟨h0, h1⟩ := accumulatedLen_sums_of_operands (accumulatedLen_len s) (accumulatedLen_buf s)
  rw [accumulatedLen_frame (accumulatedLen s), h0, h1, accumulatedLen_len, accumulatedLen_frame s]
  generalize (accumulatedLen s).c0 = c0
  generalize (accumulatedLen s).c1 = c1
  generalize BitVec.ofNat 32 s.len.toInt.toNat = e
  split_ifs <;> rfl

/-- The end of an operation plays no part in ACCUMULATE. -/
theorem accumulatedLen_complete (w : Word) (s : State) :
    accumulatedLen (complete w s) = complete w (accumulatedLen s) := by
  obtain ⟨h0, h1⟩ := accumulatedLen_sums_of_operands (s := s) (u := complete w s) rfl rfl
  rw [accumulatedLen_frame (complete w s), h0, h1]
  rfl

/-- The inverter's octets play no part in ACCUMULATE. -/
theorem accumulatedLen_setOctets (a b : Octet) (s : State) :
    accumulatedLen (s.setOctets a b) = (accumulatedLen s).setOctets a b := by
  obtain ⟨h0, h1⟩ := accumulatedLen_sums_of_operands (s := s) (u := s.setOctets a b) rfl rfl
  rw [accumulatedLen_frame (s.setOctets a b), h0, h1]
  rfl

theorem verifyAnswer_idem (s : State) : verifyAnswer (verifyAnswer s) = verifyAnswer s := by
  have hagain : accumulatedLen (verifyAnswer s) = verifyAnswer s := by
    rw [verifyAnswer, accumulatedLen_complete, accumulatedLen_idem]
  show complete (verdictWord (accumulatedLen (verifyAnswer s))) (accumulatedLen (verifyAnswer s)) = _
  rw [hagain, verifyAnswer, verdictWord_complete, complete_complete]

theorem sumAnswer_idem (s : State) : sumAnswer (sumAnswer s) = sumAnswer s := by
  have hagain : accumulatedLen (sumAnswer s) = sumAnswer s := by
    rw [sumAnswer, accumulatedLen_complete, accumulatedLen_idem]
  show complete (combinedValue (accumulatedLen (sumAnswer s))) (accumulatedLen (sumAnswer s)) = _
  rw [hagain, sumAnswer, combinedValue_complete, complete_complete]

/-! ### ENCODE with a field again -/

/-- With the field zeroed, buffers that agree outside the field are the same data (R112). -/
theorem withField_zero_buf_eq {s u : State} (hs : Memory.wf s.buf) (hu : Memory.wf u.buf) {k : Int} (hk : 0 < k)
    (h : ∀ a, a ≠ fieldFirst k → a ≠ fieldSecond k → Memory.read u.buf a = Memory.read s.buf a) :
    (withField k 0 0 u).buf = (withField k 0 0 s).buf := by
  refine Memory.ext (withField_buf_wf hu k 0 0) (withField_buf_wf hs k 0 0) fun a => ?_
  rw [withField_zero_read hu hk, withField_zero_read hs hk]
  split_ifs with ha
  · rfl
  · exact h a (fun h0 => ha (.inl h0)) fun h1 => ha (.inr h1)

/-- ENCODE leaves every octet outside the field as it was (R111). -/
theorem encodeAnswer_read_outside {s : State} (h : Memory.wf s.buf) (hk : 0 < s.k.toInt) {a : Nat}
    (h0 : a ≠ fieldFirst s.k.toInt) (h1 : a ≠ fieldSecond s.k.toInt) :
    Memory.read (encodeAnswer s).buf a = Memory.read s.buf a := by
  rw [encodeAnswer_read h hk, if_neg h0, if_neg h1]

theorem encodeAnswer_buf_wf {s : State} (h : Memory.wf s.buf) : Memory.wf (encodeAnswer s).buf := by
  rw [encodeAnswer_buf]
  exact withField_buf_wf (encodeInverted_buf_wf h) _ _ _

/-- Arguments that are legal stay so where the operands and the capacity are kept. -/
theorem OperandsKept.legalArgs {s t : State} (hkept : OperandsKept s t)
    (h : LegalArgs s.cap.val s.len.toInt s.k.toInt) : LegalArgs t.cap.val t.len.toInt t.k.toInt := by
  obtain ⟨hlen, hk, hcap, -⟩ := hkept
  rw [hlen, hk, hcap]
  exact h

@[simp] theorem sumAnswer_k (s : State) : (sumAnswer s).k = s.k := (sumAnswer_operandsKept s).2.1
@[simp] theorem encodeAnswer_len (s : State) : (encodeAnswer s).len = s.len := (encodeAnswer_operandsKept s).1
@[simp] theorem encodeAnswer_k (s : State) : (encodeAnswer s).k = s.k := (encodeAnswer_operandsKept s).2.1

/-- A second ENCODE accumulates over the same octets as the first, and finds the first one's registers. -/
theorem encodeAccumulated_encodeAnswer {s : State} (h : Memory.wf s.buf) (hk : 0 < s.k.toInt) :
    encodeAccumulated (encodeAnswer s) = complete (combinedValue (encodeAccumulated s)) (encodeInverted s) := by
  have hbuf : (withField s.k.toInt 0 0 (encodeAnswer s)).buf = (encodeInverted s).buf :=
    (withField_zero_buf_eq h (encodeAnswer_buf_wf h) hk fun a => encodeAnswer_read_outside h hk).trans
      (encodeInverted_buf s).symm
  have hzeroed : withField s.k.toInt 0 0 (encodeAnswer s) =
      complete (combinedValue (encodeAccumulated s)) (encodeInverted s) := by
    rw [encodeAnswer, withField_complete] at hbuf ⊢
    rw [withField_withField_eq hbuf, setBuf_self rfl]
  have hagain : accumulatedLen (encodeAccumulated s) = encodeAccumulated s := accumulatedLen_idem _
  rw [encodeAccumulated, encodeAnswer_k, hzeroed, encodeInverted_eq, accumulatedLen_complete,
    accumulatedLen_setOctets, hagain]

/-- A second I.INV computes the octets the first one computed. -/
theorem encodeInverted_encodeAnswer {s : State} (h : Memory.wf s.buf) (hk : 0 < s.k.toInt) :
    encodeInverted (encodeAnswer s) = encodeAccumulated (encodeAnswer s) := by
  have hacc := encodeAccumulated_encodeAnswer h hk
  rw [encodeInverted_eq s] at hacc
  obtain ⟨hiq, hir⟩ : (encodeInverted (encodeAnswer s)).iq = (encodeInverted s).iq ∧
      (encodeInverted (encodeAnswer s)).ir = (encodeInverted s).ir := by
    rw [encodeInverted, encodeAnswer_len, encodeAnswer_k]
    exact invert_octets_of_sums _ _ (encodeAccumulated_c0_le s) (by rw [hacc]; rfl) (by rw [hacc]; rfl)
  rw [encodeInverted_eq, hiq, hir, hacc]
  rfl

theorem encodeAnswer_idem {s : State} (h : Memory.wf s.buf) (hk : 0 < s.k.toInt) :
    encodeAnswer (encodeAnswer s) = encodeAnswer s := by
  have hcombined : combinedValue (encodeInverted s) = combinedValue (encodeAccumulated s) := by
    rw [encodeInverted_eq, combinedValue_setOctets]
  show complete (combinedValue (encodeAccumulated (encodeAnswer s))) (withField (encodeAnswer s).k.toInt
    (encodeInverted (encodeAnswer s)).iq (encodeInverted (encodeAnswer s)).ir (encodeInverted (encodeAnswer s))) = _
  rw [encodeInverted_encodeAnswer h hk, encodeAccumulated_encodeAnswer h hk, encodeAnswer_k, combinedValue_complete,
    hcombined, withField_complete, complete_complete, complete_iq, complete_ir, encodeAnswer]

end Sys2Proof.Machine
end

section
/-! PROOFS. The field's content before ENCODE, and operations run twice. -/

namespace Sys2Proof.Machine

/-- Settles O35: zeroing the field makes the two buffers the same data. -/
theorem fieldContentIsIrrelevant : Obligations.FieldContentIsIrrelevant := by
  intro s u ⟨hs, _⟩ ⟨hu, _⟩ hsame h hk hoff
  obtain ⟨m, rfl⟩ : ∃ m, u = s.setBuf m := ⟨u.buf, hsame⟩
  have hzeroed : withField s.k.toInt 0 0 (s.setBuf m) = withField s.k.toInt 0 0 s :=
    congrArg s.setBuf (withField_zero_buf_eq hs hu hk hoff)
  have hacc : encodeAccumulated (s.setBuf m) = encodeAccumulated s := congrArg accumulatedLen hzeroed
  have hinv : encodeInverted (s.setBuf m) = encodeInverted s := congrArg (invert s.len.toInt s.k.toInt) hacc
  rw [execEncode_field (s := s.setBuf m) h hk, execEncode_field h hk, encodeAnswer, encodeAnswer, hacc, hinv]
  rfl

/-- Settles O38: VERIFY's answer is its own accumulation, so that the verdict stands. -/
theorem verifyIsRepeatable : Obligations.VerifyIsRepeatable := by
  intro s h
  refine ⟨_, execVerify_legal h, verifyAnswer_buf s, ?_⟩
  rw [execVerify_legal ((verifyAnswer_operandsKept s).legalArgs h), verifyAnswer_idem]

/-- Settles O39: the answer of SUM is its own accumulation; that of ENCODE with a field accumulates, inverts and inserts
to itself. -/
theorem encodeIsIdempotent : Obligations.EncodeIsIdempotent := by
  intro s ⟨hwf, _⟩ h
  obtain hk | hk : s.k.toInt = 0 ∨ 0 < s.k.toInt := by omega
  · refine ⟨_, execEncode_sum h hk, ?_⟩
    rw [execEncode_sum ((sumAnswer_operandsKept s).legalArgs h) (by rwa [sumAnswer_k]), sumAnswer_idem]
  · refine ⟨_, execEncode_field h hk, ?_⟩
    rw [execEncode_field ((encodeAnswer_operandsKept s).legalArgs h) (by rwa [encodeAnswer_k]),
      encodeAnswer_idem hwf hk]

end Sys2Proof.Machine
end

section
/-! SUPPORT. The sums of an encoded buffer, and the sums of two buffers that differ. -/

namespace Sys2Proof.Machine

/-! ### The round trip -/

/-- The octets of the inverter, filled into a zeroed field, complete both sums (R97). -/
theorem sums_vanish_of_check_octets {f : Nat → Nat} {len p a b : Nat} (hp : p + 1 < len) (h0 : f p = 0)
    (h1 : f (p + 1) = 0)
    (ha : (a : Int) = iqOf len (p + 1) (plainSum f len % 255 : Nat) (weightedSum f len % 255 : Nat))
    (hb : (b : Int) = irOf (plainSum f len % 255 : Nat) a) :
    let filled := fun i => if i = p then a else if i = p + 1 then b else f i
    plainSum filled len % 255 = 0 ∧ weightedSum filled len % 255 = 0 := by
  intro filled
  obtain ⟨hplain, hweighted⟩ := sums_fill_field hp h0 h1 a b
  obtain ⟨d, rfl⟩ : ∃ d, len = p + 1 + d := ⟨len - (p + 1), by omega⟩
  obtain ⟨hc0, hc1⟩ := sums_zero_iff_check_octets.2 ⟨congrArg (· % 255) ha, congrArg (· % 255) (ha ▸ hb)⟩
  rw [show (((p + 1 + d : Nat) : Int) - (p + 1)) = d by push_cast; ring] at hc1
  rw [show p + 1 + d - p = d + 1 by omega, Nat.add_sub_cancel_left] at hweighted
  rw [hplain, hweighted]
  norm_cast at hc0 hc1
  omega

theorem octetAt_encodeAnswer {s : State} (h : Memory.wf s.buf) (hk : 0 < s.k.toInt) :
    octetAt (encodeAnswer s) = fun i =>
      if i = fieldFirst s.k.toInt then octetAt (encodeAnswer s) (fieldFirst s.k.toInt)
      else if i = fieldSecond s.k.toInt then octetAt (encodeAnswer s) (fieldSecond s.k.toInt)
      else octetAt (withField s.k.toInt 0 0 s) i := by
  funext i
  split_ifs with h0 h1
  · rw [h0]
  · rw [h1]
  · rw [octetAt, octetAt, encodeAnswer_read_outside h hk h0 h1, withField_read h hk, if_neg h0, if_neg h1]

/-- Both sums of an encoded buffer vanish modulo 255 (R118). -/
theorem encodeAnswer_sumsVanish {s : State} (h : Memory.wf s.buf) (hlegal : LegalArgs s.cap.val s.len.toInt s.k.toInt)
    (hk : 0 < s.k.toInt) : SumsVanish (encodeAnswer s) := by
  obtain ⟨hsecond, hinside, hfirst⟩ := field_indices (len := s.len.toInt) hk (by omega)
  obtain ⟨hiq, hir⟩ := encodeAnswer_field h hk
  have hlen : (s.len.toInt.toNat : Int) = s.len.toInt := by omega
  have hk' : s.k.toInt = (fieldFirst s.k.toInt : Int) + 1 := by omega
  have hzero : octetAt (withField s.k.toInt 0 0 s) (fieldFirst s.k.toInt) = 0 ∧
      octetAt (withField s.k.toInt 0 0 s) (fieldFirst s.k.toInt + 1) = 0 := by
    rw [octetAt_withField_zero h hk, ← hsecond]
    simp only [zeroedField, hk, true_or, or_true, and_self, if_true]
  have hc0 : (encodeAnswer s).c0.toNat = plainSum (octetAt (withField s.k.toInt 0 0 s)) s.len.toInt.toNat % 255 :=
    accumulatedLen_c0_toNat (withField s.k.toInt 0 0 s)
  have hc1 : (encodeAnswer s).c1.toNat = weightedSum (octetAt (withField s.k.toInt 0 0 s)) s.len.toInt.toNat % 255 :=
    accumulatedLen_c1_toNat (withField s.k.toInt 0 0 s)
  rw [SumsVanish, encodeAnswer_len, octetAt_encodeAnswer h hk, hsecond]
  refine sums_vanish_of_check_octets (by omega) hzero.1 hzero.2 ?_ ?_
  · rw [hiq, ← hc0, ← hc1, hlen, ← hk']
  · rw [← hc0, ← hsecond, hir]

/-! ### Two buffers that differ -/

theorem plainSum_sub (f g : Nat → Nat) (n : Nat) :
    ∑ i ∈ Finset.range n, ((g i : Int) - f i) = plainSum g n - plainSum f n := by
  rw [Finset.sum_sub_distrib, plainSum, plainSum]
  push_cast
  rfl

theorem weightedSum_cast (f : Nat → Nat) (n : Nat) :
    (weightedSum f n : Int) = ∑ i ∈ Finset.range n, ((n : Int) - i) * f i := by
  rw [weightedSum, Nat.cast_sum]
  refine Finset.sum_congr rfl fun i hi => ?_
  rw [Nat.cast_mul, Nat.cast_sub (Finset.mem_range.1 hi).le]

theorem weightedSum_sub (f g : Nat → Nat) (n : Nat) :
    ∑ i ∈ Finset.range n, ((n : Int) - i) * ((g i : Int) - f i) = weightedSum g n - weightedSum f n := by
  simp only [weightedSum_cast, mul_sub, Finset.sum_sub_distrib]

/-- Where the sums of one buffer vanish, those of another do exactly where the sums of the differences do (R122). -/
theorem sumsVanish_iff_differences {s u : State} (hlen : u.len = s.len) (hs : SumsVanish s) :
    SumsVanish u ↔
      (∑ i ∈ Finset.range s.len.toInt.toNat, ((octetAt u i : Int) - octetAt s i)) % 255 = 0 ∧
      (∑ i ∈ Finset.range s.len.toInt.toNat,
        ((s.len.toInt.toNat : Int) - i) * ((octetAt u i : Int) - octetAt s i)) % 255 = 0 := by
  obtain ⟨hplain, hweighted⟩ := hs
  rw [SumsVanish, hlen, plainSum_sub, weightedSum_sub]
  omega

/-- One octet changed goes unnoticed exactly where it changed by a multiple of 255, from `0x00` to `0xFF` or back
(R122 b). -/
theorem sumsVanish_iff_of_one_change {s u : State} {i : Nat} (hlen : u.len = s.len) (hs : SumsVanish s)
    (hi : i < s.len.toInt.toNat) (hrest : ∀ a, a ≠ i → octetAt u a = octetAt s a) (hne : octetAt u i ≠ octetAt s i) :
    SumsVanish u ↔ (octetAt s i = 0 ∧ octetAt u i = 255) ∨ (octetAt s i = 255 ∧ octetAt u i = 0) := by
  have hmem : i ∈ Finset.range s.len.toInt.toNat := Finset.mem_range.2 hi
  have hzero : ∀ a ≠ i, (octetAt u a : Int) - octetAt s a = 0 := fun a ha => by rw [hrest a ha, sub_self]
  have hsle := octetAt_le s i
  have hule := octetAt_le u i
  rw [sumsVanish_iff_differences hlen hs, Finset.sum_eq_single_of_mem i hmem fun a _ ha => hzero a ha,
    Finset.sum_eq_single_of_mem i hmem fun a _ ha => by rw [hzero a ha, mul_zero]]
  have hmultiple : ((octetAt u i : Int) - octetAt s i) % 255 = 0 →
      (((s.len.toInt.toNat : Int) - i) * ((octetAt u i : Int) - octetAt s i)) % 255 = 0 := fun h =>
    Int.emod_eq_zero_of_dvd ((Int.dvd_of_emod_eq_zero h).mul_left _)
  rw [and_iff_left_of_imp hmultiple]
  omega

/-- Two adjacent octets swapped go unnoticed exactly where they are equal modulo 255 (R122 c, d): the plain sum stays,
and the weights differ by one. -/
theorem sumsVanish_iff_of_swap {s u : State} {i : Nat} (hlen : u.len = s.len) (hs : SumsVanish s)
    (hi : i + 1 < s.len.toInt.toNat) (hrest : ∀ a, a ≠ i → a ≠ i + 1 → octetAt u a = octetAt s a)
    (h0 : octetAt u i = octetAt s (i + 1)) (h1 : octetAt u (i + 1) = octetAt s i) :
    SumsVanish u ↔ octetAt s i % 255 = octetAt s (i + 1) % 255 := by
  have hmem : i ∈ Finset.range s.len.toInt.toNat := Finset.mem_range.2 (by omega)
  have hmem' : i + 1 ∈ Finset.range s.len.toInt.toNat := Finset.mem_range.2 hi
  have hzero : ∀ a, a ≠ i ∧ a ≠ i + 1 → (octetAt u a : Int) - octetAt s a = 0 := fun a ha => by
    rw [hrest a ha.1 ha.2, sub_self]
  rw [sumsVanish_iff_differences hlen hs,
    Finset.sum_eq_add_of_mem i (i + 1) hmem hmem' (by omega) fun a _ ha => hzero a ha,
    Finset.sum_eq_add_of_mem i (i + 1) hmem hmem' (by omega) fun a _ ha => by rw [hzero a ha, mul_zero], h0, h1]
  have hplain : ((octetAt s (i + 1) : Int) - octetAt s i) + ((octetAt s i : Int) - octetAt s (i + 1)) = 0 := by ring
  have hweighted : ((s.len.toInt.toNat : Int) - i) * ((octetAt s (i + 1) : Int) - octetAt s i) +
      ((s.len.toInt.toNat : Int) - (i + 1 : Nat)) * ((octetAt s i : Int) - octetAt s (i + 1)) =
        (octetAt s (i + 1) : Int) - octetAt s i := by push_cast; ring
  rw [hplain, hweighted]
  omega

/-- A flipped bit changes its octet, but never from `0x00` to `0xFF` or back (R122 a). -/
theorem flipped_bit {j : Nat} (hj : j < 8) (b : Octet) : (b ^^^ (1 <<< j)).toNat ≠ b.toNat ∧
    ¬ ((b.toNat = 0 ∧ (b ^^^ (1 <<< j)).toNat = 255) ∨ (b.toNat = 255 ∧ (b ^^^ (1 <<< j)).toNat = 0)) := by
  revert b
  revert j
  decide +kernel

theorem verifyAnswer_result_eq_zero {s : State} (h : ¬ SumsVanish s) : (verifyAnswer s).result = 0 := by
  rw [verifyAnswer_verdict, if_neg h]

end Sys2Proof.Machine
end

section
/-! PROOFS. The round trip, and which corruptions of a valid buffer VERIFY detects. -/

namespace Sys2Proof.Machine

/-- Settles O37: both sums of the encoded buffer vanish, whatever `k'` is, so that VERIFY reports 1 and the combined
value of SUM is 0. -/
theorem encodedBufferVerifies : Obligations.EncodedBufferVerifies := by
  intro s ⟨hwf, _⟩ h hk
  have hexec := execEncode_field h hk
  have hvanish : SumsVanish (encodeAnswer s) := encodeAnswer_sumsVanish hwf h hk
  obtain ⟨hlen, -, hcap, -⟩ := encodeAnswer_operandsKept s
  generalize encodeAnswer s = t at hexec hvanish hlen hcap
  refine ⟨t, hexec, fun k' hk' => ?_, ?_⟩
  · have hlegal : LegalArgs t.cap.val t.len.toInt k'.toInt := by rwa [hlen, hcap]
    exact ⟨_, execVerify_legal (s := t.setK k') hlegal, verifyAnswer_status _,
      (verifyAnswer_result_eq_one_iff (t.setK k')).2 hvanish⟩
  · have hlegal : LegalArgs t.cap.val t.len.toInt (0 : Word).toInt := by
      rw [hlen, hcap]
      exact ⟨h.1, h.2.1, .inl rfl⟩
    obtain ⟨h0, h1⟩ := (accumulatedLen_sums_zero_iff (t.setK 0)).2 hvanish
    refine ⟨_, execEncode_sum (s := t.setK 0) hlegal rfl, sumAnswer_status _, ?_⟩
    rw [sumAnswer_result, combinedValue, h0, h1]
    rfl

/-- Settles O40: both verdicts say whether the sums vanish, and the sums of the two buffers differ by those of the
differences. -/
theorem undetectedCorruptionExactly : Obligations.UndetectedCorruptionExactly := by
  intro s u h hsame
  obtain ⟨m, rfl⟩ : ∃ m, u = s.setBuf m := ⟨u.buf, hsame⟩
  refine ⟨_, _, execVerify_legal h, execVerify_legal (s := s.setBuf m) h, fun hvalid => ?_⟩
  rw [verifyAnswer_result_eq_one_iff] at hvalid ⊢
  exact sumsVanish_iff_differences rfl hvalid

/-- Settles O41: a flipped bit is one changed octet, and not one of the two changes that go unnoticed. -/
theorem singleBitFlipIsDetected : Obligations.SingleBitFlipIsDetected := by
  intro s u i j h hsame hi hj hflip hrest
  obtain ⟨m, rfl⟩ : ∃ m, u = s.setBuf m := ⟨u.buf, hsame⟩
  refine ⟨_, _, execVerify_legal h, execVerify_legal (s := s.setBuf m) h, fun hvalid => ?_⟩
  rw [verifyAnswer_result_eq_one_iff] at hvalid
  obtain ⟨hne, hkept⟩ := flipped_bit hj (Memory.read s.buf i)
  rw [← hflip] at hne hkept
  exact verifyAnswer_result_eq_zero (mt (sumsVanish_iff_of_one_change (s := s) (u := s.setBuf m) rfl hvalid hi
    (fun a ha => congrArg BitVec.toNat (hrest a ha)) hne).1 hkept)

/-- Settles O42: one changed octet must change by a multiple of 255, and two swapped ones differ by one. -/
theorem octetChangeAndSwapDetection : Obligations.OctetChangeAndSwapDetection := by
  intro s u i h hsame
  obtain ⟨m, rfl⟩ : ∃ m, u = s.setBuf m := ⟨u.buf, hsame⟩
  refine ⟨_, _, execVerify_legal h, execVerify_legal (s := s.setBuf m) h, ?_, ?_⟩
  · intro hvalid hi hrest hne
    rw [verifyAnswer_result_eq_one_iff] at hvalid ⊢
    exact sumsVanish_iff_of_one_change (s := s) rfl hvalid hi (fun a ha => congrArg BitVec.toNat (hrest a ha)) hne
  · intro hvalid hi hrest h0 h1
    rw [verifyAnswer_result_eq_one_iff] at hvalid ⊢
    exact sumsVanish_iff_of_swap (s := s) rfl hvalid hi (fun a ha ha' => congrArg BitVec.toNat (hrest a ha ha')) h0 h1

end Sys2Proof.Machine
end

section
/-! SUPPORT. Stretches of an operation's small steps: where they lead, and how many control words they give. -/

namespace Sys2Proof.Machine

/-! ### Control words counted -/

/-- Among the control words given: how many A.CLR, A.ABS, A.RED and I.INV, and how many lines. -/
def lineCounts (given : List (AopWord × IenWord)) : Nat × Nat × Nat × Nat × Nat :=
  (given.countP fun g => aopField g.1 == 0b01, given.countP fun g => aopField g.1 == 0b10,
    given.countP fun g => aopField g.1 == 0b11, given.countP fun g => g.2 == 1, given.length)

theorem lineCounts_cons (x : AopWord × IenWord) (given : List (AopWord × IenWord)) :
    lineCounts (x :: given) = lineCounts given + lineCounts [x] := by
  simp only [lineCounts, Prod.mk_add_mk, List.countP_cons, List.countP_nil, List.length_cons, List.length_nil, zero_add]

@[simp] theorem lineCounts_hold : lineCounts [(aopWord 0b00 0, 0)] = (0, 0, 0, 0, 1) := by decide
@[simp] theorem lineCounts_clear : lineCounts [(aopWord 0b01 0, 0)] = (1, 0, 0, 0, 1) := by decide
@[simp] theorem lineCounts_reduce : lineCounts [(aopWord 0b11 0, 0)] = (0, 0, 1, 0, 1) := by decide
@[simp] theorem lineCounts_invert : lineCounts [(aopWord 0b00 0, 1)] = (0, 0, 0, 1, 1) := by decide

@[simp] theorem lineCounts_absorb (b : Octet) : lineCounts [(aopWord 0b10 b, 0)] = (0, 1, 0, 0, 1) := by
  simp only [lineCounts, List.countP_singleton, aopField_aopWord]
  rfl

/-! ### Stretches of small steps -/

/-- Under the command `w` the small steps lead from line `p` with state `s` to line `p'` with state `t`, and give
control words of these counts. -/
def Leads (w : Word) (p : Phase) (s : State) (p' : Phase) (t : State) (c : Nat × Nat × Nat × Nat × Nat) : Prop :=
  ∀ g, ∃ n g', ticks n ⟨p, w, s, g⟩ = .next ⟨p', w, t, g'⟩ ∧ lineCounts g' = lineCounts g + c

section
variable {w : Word} {p p' p'' : Phase} {s t u : State} {c d : Nat × Nat × Nat × Nat × Nat}

theorem Leads.refl : Leads w p s p s 0 := fun g => ⟨0, g, rfl, rfl⟩

theorem Leads.trans (h : Leads w p s p' t c) (h' : Leads w p' t p'' u d) : Leads w p s p'' u (c + d) := by
  intro g
  obtain ⟨m, g', hm, hc⟩ := h g
  obtain ⟨n, g'', hn, hd⟩ := h' g'
  exact ⟨m + n, g'', by rw [ticks_add, hm, andThen_next, hn], by rw [hd, hc, add_assoc]⟩

theorem Leads.of_eq (h : Leads w p s p' t c) (hc : c = d) : Leads w p s p' t d := hc ▸ h

/-- One small step. -/
theorem Leads.of_tick {x : AopWord × IenWord} (h : ∀ g, tick ⟨p, w, s, g⟩ = .next ⟨p', w, t, x :: g⟩) :
    Leads w p s p' t (lineCounts [x]) := fun g =>
  ⟨1, x :: g, by rw [ticks, h, andThen_next, ticks], lineCounts_cons x g⟩

/-- One line that gives both blocks their hold word. -/
theorem Leads.of_hold (h0 : p ≠ .done) (h6 : p ≠ .s6) (ha : aopGiven p s = .ok (aopWord 0b00 0))
    (he : engineAct p w s = .ok (t, p')) : Leads w p s p' t (0, 0, 0, 0, 1) :=
  lineCounts_hold ▸ Leads.of_tick (tick_hold h0 h6 ha he)

end

/-! ### S4 and S5: ACCUMULATE -/

/-- The S4 line clears the sums and `IDX`. -/
theorem tick_s4 (w : Word) (s : State) (g : List (AopWord × IenWord)) : tick ⟨.s4, w, s, g⟩ = .next
    ⟨loopHead w ((clearSums s).setIdx 0), w, (clearSums s).setIdx 0, (aopWord 0b01 0, 0) :: g⟩ := rfl

/-- The S5c line reduces the sums. -/
theorem tick_s5c (w : Word) (s : State) (g : List (AopWord × IenWord)) : tick ⟨.s5c, w, s, g⟩ = .next
    ⟨loopHead w (reduceSums s), w, reduceSums s, (aopWord 0b11 0, 0) :: g⟩ := rfl

/-- A pass of the inner loop of ACCUMULATE reads an octet that exists. -/
theorem absorbOctets_succ_ok {n : Nat} {s t : State} (h : absorbOctets (n + 1) s = .ok t) :
    ∃ b, memRead s s.idx.toNat = .ok b ∧ absorbOctets n (advanceIdx (absorb b s)) = .ok t := by
  rw [absorbOctets] at h
  cases hb : memRead s s.idx.toNat with
  | ok b => exact ⟨b, rfl, by rwa [hb] at h⟩
  | error f => rw [hb] at h; cases h

/-- A segment's answer is that of its inner loop, reduced. -/
theorem accumulateSegment_ok {len : Nat} {s t : State} (h : accumulateSegment len s = .ok t) :
    ∃ u, absorbOctets ((startSegment len s).segend.toNat - s.idx.toNat) (startSegment len s) = .ok u ∧
      t = reduceSums u := by
  simp only [accumulateSegment] at h
  split at h
  case h_1 u hu => exact ⟨u, hu, by injection h with h; exact h.symm⟩
  case h_2 => cases h

theorem advanceIdx_absorb_idx {b : Octet} {s : State} (h : s.idx.toNat < s.segend.toNat) :
    (advanceIdx (absorb b s)).idx.toNat = s.idx.toNat + 1 := by
  have hlt : s.segend.toNat < 4294967296 := s.segend.isLt
  exact toNat_ofNat_word (show s.idx.toNat + 1 < 4294967296 by omega)

/-- The S5b lines up to `SEGEND` are the inner loop of ACCUMULATE (R75). -/
theorem leads_absorbOctets {w : Word} {n : Nat} {s t : State} (h : absorbOctets (n + 1) s = .ok t)
    (hsegend : s.idx.toNat + (n + 1) = s.segend.toNat) : Leads w .s5b s .s5c t (0, n + 1, 0, 0, n + 1) := by
  induction n generalizing s with
  | zero =>
    obtain ⟨b, hread, hrest⟩ := absorbOctets_succ_ok h
    obtain rfl : advanceIdx (absorb b s) = t := by injection hrest
    have hidx := advanceIdx_absorb_idx (b := b) (s := s) (by omega)
    have hend : ¬ (advanceIdx (absorb b s)).idx.toNat < (advanceIdx (absorb b s)).segend.toNat := by
      rw [hidx]
      exact Nat.not_lt.2 hsegend.ge
    have htick := Leads.of_tick (tick_s5b (w := w) hread)
    rwa [if_neg hend, lineCounts_absorb] at htick
  | succ n ih =>
    obtain ⟨b, hread, hrest⟩ := absorbOctets_succ_ok h
    have hidx := advanceIdx_absorb_idx (b := b) (s := s) (by omega)
    have hend : (advanceIdx (absorb b s)).segend.toNat = s.segend.toNat := rfl
    have htick := Leads.of_tick (tick_s5b (w := w) hread)
    rw [if_pos (by omega), lineCounts_absorb] at htick
    exact (htick.trans (ih hrest (by omega))).of_eq (by simp only [Prod.mk_add_mk, Prod.mk.injEq, true_and]; omega)

/-- The lines S5a to S5c are one segment of ACCUMULATE (R75, R76). -/
theorem leads_segment {w : Word} {len : Nat} {s t : State} (hlen : s.len.toInt.toNat = len) (hidx : s.idx.toNat < len)
    (h : accumulateSegment len s = .ok t) :
    Leads w .s5a s (loopHead w t) t (0, min (s.idx.toNat + 4102) len - s.idx.toNat, 1, 0,
      min (s.idx.toNat + 4102) len - s.idx.toNat + 2) := by
  obtain ⟨u, hu, rfl⟩ := accumulateSegment_ok h
  have hsegend : (startSegment len s).segend.toNat = min (s.idx.toNat + 4102) len :=
    toNat_ofNat_word (by have := s.len.toInt_lt; omega)
  obtain ⟨n, hn⟩ : ∃ n, min (s.idx.toNat + 4102) len - s.idx.toNat = n + 1 := Nat.exists_eq_add_one.2 (by omega)
  rw [hsegend, hn] at hu
  have hstart : Leads w .s5a s .s5b (startSegment len s) (0, 0, 0, 0, 1) :=
    .of_hold (by decide) (by decide) rfl (by rw [← hlen]; rfl)
  have habsorb : Leads w .s5b (startSegment len s) .s5c u (0, n + 1, 0, 0, n + 1) :=
    leads_absorbOctets hu (by rw [hsegend]; show s.idx.toNat + (n + 1) = _; omega)
  have hreduce := Leads.of_tick (tick_s5c w u)
  rw [lineCounts_reduce] at hreduce
  rw [hn]
  exact ((hstart.trans habsorb).trans hreduce).of_eq (by simp only [Prod.mk_add_mk, Prod.mk.injEq, true_and]; omega)

theorem loopHead_summedTo {w : Word} {m : Nat} {s : State} (hm : m ≤ s.cap.val) :
    loopHead w (summedTo m s) = if m < s.len.toInt.toNat then .s5a else afterLoop w s := by
  rw [loopHead, summedTo_idx_toNat hm]
  rfl

/-- The lines of S5 that are left are the segments that are left (R75, R116). -/
theorem leads_segments {w : Word} {len m n : Nat} {s t : State} (hlen : s.len.toInt.toNat = len)
    (hcap : len ≤ s.cap.val) (hm : m ≤ len) (hn : len ≤ m + 4102 * n) (hn' : m + 4102 * n < len + 4102)
    (h : accumulateSegments len n (summedTo m s) = .ok t) :
    Leads w (loopHead w (summedTo m s)) (summedTo m s) (afterLoop w s) t (0, len - m, n, 0, len - m + 2 * n) := by
  induction n generalizing m s with
  | zero =>
    obtain rfl : m = len := by omega
    obtain rfl : summedTo m s = t := by injection h
    rw [loopHead_summedTo hcap, if_neg (by omega), Nat.sub_self]
    exact .refl
  | succ n ih =>
    have hlt : m < len := by omega
    have hidx : (summedTo m s).idx.toNat = m := summedTo_idx_toNat (by omega)
    have hstep := accumulateSegment_summedTo (s := s) hcap hm
    simp only [accumulateSegments, hstep] at h
    have hsegment := leads_segment (w := w) (s := summedTo m s) hlen (by rwa [hidx]) hstep
    have hrest := ih (m := min (m + 4102) len) (s := s.setSegend (BitVec.ofNat 32 (min (m + 4102) len))) hlen hcap
      (by omega) (by omega) (by omega) h
    rw [hidx] at hsegment
    rw [loopHead_summedTo (hm.trans hcap), hlen, if_pos hlt]
    exact (hsegment.trans hrest).of_eq (by simp only [Prod.mk_add_mk, Prod.mk.injEq, true_and]; omega)

/-- The lines S4 and S5 are ACCUMULATE (R75, R116). -/
theorem leads_accumulate {w : Word} {s : State} (hlen : s.len.toInt.toNat ≤ s.cap.val) :
    Leads w .s4 s (afterLoop w s) (accumulatedLen s) (1, s.len.toInt.toNat, (s.len.toInt.toNat + 4101) / 4102, 0,
      1 + s.len.toInt.toNat + 2 * ((s.len.toInt.toNat + 4101) / 4102)) := by
  have hclear := Leads.of_tick (tick_s4 w s)
  rw [lineCounts_clear, ← summedTo_zero] at hclear
  have hacc : accumulateSegments s.len.toInt.toNat ((s.len.toInt.toNat + 4101) / 4102) (summedTo 0 s) =
      .ok (accumulatedLen s) := accumulate_eq hlen
  have hloop := leads_segments (w := w) rfl hlen (Nat.zero_le _) (by omega) (by omega) hacc
  exact (hclear.trans hloop).of_eq (by simp only [Prod.mk_add_mk, Prod.mk.injEq, Nat.sub_zero, true_and]; omega)

/-! ### The other lines -/

/-- S0 passes a command word (R51). -/
theorem leads_decode {w : Word} {i : Instr} (h : decodeCmd w = .ok i) (s : State) :
    Leads w .s0 s .s1 s (0, 0, 0, 0, 1) :=
  .of_hold (by decide) (by decide) rfl (by rw [engineAct, h])

/-- S1 passes legal arguments (R141). -/
theorem leads_check {w : Word} {s : State} (h : LegalArgs s.cap.val s.len.toInt s.k.toInt) :
    Leads w .s1 s (if inserts w s then .s2 else .s4) s (0, 0, 0, 0, 1) :=
  .of_hold (by decide) (by decide) rfl (by simp only [engineAct, operandLen, operandK, checkArgs_none.2 h])

theorem writeThen_inside {s : State} {i : Nat} (h : i < s.cap.val) (v : Octet) (p : Phase) :
    writeThen i v p s = .ok (s.setBuf (Memory.write s.buf i v), p) := by
  rw [writeThen, memWrite_inside h]

/-- S2 and S3 zero the field (R112). -/
theorem leads_zeroField {w : Word} {s : State} (h0 : fieldFirst s.k.toInt < s.cap.val)
    (h1 : fieldSecond s.k.toInt < s.cap.val) :
    Leads w .s2 s .s4 (withField s.k.toInt 0 0 s) (0, 0, 0, 0, 2) := by
  have hfirst : Leads w .s2 s .s3 (s.setBuf (Memory.write s.buf (fieldFirst s.k.toInt) 0)) (0, 0, 0, 0, 1) :=
    .of_hold (by decide) (by decide) rfl (writeThen_inside h0 _ _)
  have hsecond : Leads w .s3 (s.setBuf (Memory.write s.buf (fieldFirst s.k.toInt) 0)) .s4 (withField s.k.toInt 0 0 s)
      (0, 0, 0, 0, 1) :=
    .of_hold (by decide) (by decide) rfl 
      (writeThen_inside (s := s.setBuf (Memory.write s.buf (fieldFirst s.k.toInt) 0)) h1 _ _)
  exact hfirst.trans hsecond

/-- The S6 line runs I.INV. -/
theorem tick_s6 (w : Word) (s : State) (g : List (AopWord × IenWord)) : tick ⟨.s6, w, s, g⟩ = .next
    ⟨.s7, w, invert s.len.toInt s.k.toInt s, (aopWord 0b00 0, 1) :: g⟩ := rfl

/-- S6 to S8 invert and store the two octets (R111). -/
theorem leads_insert {w : Word} {s : State} (h0 : fieldFirst s.k.toInt < s.cap.val)
    (h1 : fieldSecond s.k.toInt < s.cap.val) :
    Leads w .s6 s .s9 (withField s.k.toInt (invert s.len.toInt s.k.toInt s).iq (invert s.len.toInt s.k.toInt s).ir
      (invert s.len.toInt s.k.toInt s)) (0, 0, 0, 1, 3) := by
  have hinvert := Leads.of_tick (tick_s6 w s)
  rw [lineCounts_invert] at hinvert
  obtain ⟨-, hk, hcap, -⟩ := invert_operandsKept s.len.toInt s.k.toInt s
  generalize invert s.len.toInt s.k.toInt s = t at hinvert hk hcap ⊢
  rw [← hk, ← hcap] at h0 h1
  rw [← hk]
  have hfirst : Leads w .s7 t .s8 (t.setBuf (Memory.write t.buf (fieldFirst t.k.toInt) t.iq)) (0, 0, 0, 0, 1) :=
    .of_hold (by decide) (by decide) rfl (writeThen_inside h0 _ _)
  have hsecond : Leads w .s8 (t.setBuf (Memory.write t.buf (fieldFirst t.k.toInt) t.iq)) .s9
      (withField t.k.toInt t.iq t.ir t) (0, 0, 0, 0, 1) :=
    .of_hold (by decide) (by decide) rfl 
      (writeThen_inside (s := t.setBuf (Memory.write t.buf (fieldFirst t.k.toInt) t.iq)) h1 _ _)
  exact (hinvert.trans hfirst).trans hsecond

/-- S9 and S10 end the operation (R117). -/
theorem leads_complete (w : Word) (s : State) : Leads w .s9 s .done
    (complete (if w = encodeCommand then combinedValue s else verdictWord s) s) (0, 0, 0, 0, 2) :=
  have hstatus : Leads w .s9 s .s10 (s.setStatus statusOk) (0, 0, 0, 0, 1) := .of_hold (by decide) (by decide) rfl rfl
  have hresult : Leads w .s10 (s.setStatus statusOk) .done
      (complete (if w = encodeCommand then combinedValue s else verdictWord s) s) (0, 0, 0, 0, 1) :=
    .of_hold (by decide) (by decide) rfl rfl
  hstatus.trans hresult

end Sys2Proof.Machine
end

section
/-! PROOFS. The small steps of every command word end in the atomic outcome, with the micro-operations counted. -/

namespace Sys2Proof.Machine

theorem inserts_verify (s : State) : inserts verifyCommand s = false := rfl

theorem inserts_encode (s : State) : inserts encodeCommand s = decide (0 < s.k.toInt) := by
  rw [inserts, beq_self_eq_true, Bool.true_and]
  rfl

theorem withField_len (k : Int) (a b : Octet) (s : State) : (withField k a b s).len = s.len := rfl

theorem encodeAccumulated_len (s : State) : (encodeAccumulated s).len = s.len := accumulated_len _ _
theorem encodeAccumulated_k (s : State) : (encodeAccumulated s).k = s.k := accumulated_k _ _
theorem encodeAccumulated_cap (s : State) : (encodeAccumulated s).cap = s.cap := accumulated_cap _ _

theorem combinedValue_withField (k : Int) (a b : Octet) (s : State) :
    combinedValue (withField k a b s) = combinedValue s := rfl

theorem combinedValue_invert (len k : Int) (s : State) : combinedValue (invert len k s) = combinedValue s := by
  rw [invert_frame]
  rfl

/-- S0 and S1 on a command with legal arguments that inserts no octets, then ACCUMULATE and the end. -/
theorem leads_without_field {w : Word} {i : Instr} {s : State} (hw : decodeCmd w = .ok i)
    (h : LegalArgs s.cap.val s.len.toInt s.k.toInt) (hins : inserts w s = false) :
    Leads w .s0 s .done (complete (if w = encodeCommand then combinedValue (accumulatedLen s)
        else verdictWord (accumulatedLen s)) (accumulatedLen s))
      (1, s.len.toInt.toNat, (s.len.toInt.toNat + 4101) / 4102, 0,
        5 + s.len.toInt.toNat + 2 * ((s.len.toInt.toNat + 4101) / 4102)) := by
  have hcheck := leads_check (w := w) h
  have hacc := leads_accumulate (w := w) (s := s) (by omega)
  rw [hins] at hcheck
  rw [afterLoop, hins] at hacc
  exact ((((leads_decode hw s).trans hcheck).trans hacc).trans (leads_complete w _)).of_eq
    (by simp only [Prod.mk_add_mk, Prod.mk.injEq, true_and]; omega)

/-- The lines of ENCODE with `k > 0`. -/
theorem leads_with_field {s : State} (h : LegalArgs s.cap.val s.len.toInt s.k.toInt) (hk : 0 < s.k.toInt) :
    Leads encodeCommand .s0 s .done (encodeAnswer s)
      (1, s.len.toInt.toNat, (s.len.toInt.toNat + 4101) / 4102, 1,
        10 + s.len.toInt.toNat + 2 * ((s.len.toInt.toNat + 4101) / 4102)) := by
  obtain ⟨hsecond, hinside, -⟩ := field_indices (len := s.len.toInt) hk (by omega)
  have h0 : fieldFirst s.k.toInt < s.cap.val := by omega
  have h1 : fieldSecond s.k.toInt < s.cap.val := by omega
  have hins : inserts encodeCommand s = true := by rw [inserts_encode, decide_eq_true hk]
  have hcheck := leads_check (w := encodeCommand) h
  have hacc := leads_accumulate (w := encodeCommand) (s := withField s.k.toInt 0 0 s)
    (show s.len.toInt.toNat ≤ s.cap.val by omega)
  have hinsert := leads_insert (w := encodeCommand) (s := encodeAccumulated s)
    (by rwa [encodeAccumulated_k, encodeAccumulated_cap]) (by rwa [encodeAccumulated_k, encodeAccumulated_cap])
  have hend := leads_complete encodeCommand
    (withField s.k.toInt (encodeInverted s).iq (encodeInverted s).ir (encodeInverted s))
  rw [encodeAccumulated_len, encodeAccumulated_k] at hinsert
  rw [if_pos rfl, combinedValue_withField, encodeInverted, combinedValue_invert] at hend
  rw [hins] at hcheck
  rw [afterLoop, show inserts encodeCommand (withField s.k.toInt 0 0 s) = true from hins, withField_len] at hacc
  have hbefore := ((leads_decode rfl s).trans hcheck).trans (leads_zeroField h0 h1)
  exact (((hbefore.trans hacc).trans hinsert).trans hend).of_eq
    (by simp only [Prod.mk_add_mk, Prod.mk.injEq, true_and]; omega)

/-- The small steps of a command with legal arguments, and the state that its atomic run answers (R116). -/
theorem leads_legal {w : Word} {s : State} (hw : w = encodeCommand ∨ w = verifyCommand)
    (h : LegalArgs s.cap.val s.len.toInt s.k.toInt) :
    ∃ t, runControlWord (.cmd w) s = .next t ∧ Leads w .s0 s .done t
      (1, s.len.toInt.toNat, (s.len.toInt.toNat + 4101) / 4102, if w = encodeCommand ∧ 0 < s.k.toInt then 1 else 0,
        5 + s.len.toInt.toNat + 2 * ((s.len.toInt.toNat + 4101) / 4102) +
          if w = encodeCommand ∧ 0 < s.k.toInt then 5 else 0) := by
  obtain rfl | rfl := hw
  · rw [runControlWord_ok (i := .encode) rfl]
    obtain hk | hk : s.k.toInt = 0 ∨ 0 < s.k.toInt := by omega
    · have hins : ¬ (encodeCommand = encodeCommand ∧ 0 < s.k.toInt) := fun ⟨_, hpos⟩ => by omega
      rw [if_neg hins, if_neg hins]
      have hleads := leads_without_field (i := .encode) rfl h (by rw [inserts_encode, decide_eq_false (by omega)])
      rw [if_pos rfl] at hleads
      exact ⟨sumAnswer s, execEncode_sum h hk, hleads⟩
    · rw [if_pos ⟨rfl, hk⟩, if_pos ⟨rfl, hk⟩]
      exact ⟨encodeAnswer s, execEncode_field h hk, (leads_with_field h hk).of_eq
        (by simp only [Prod.mk.injEq, true_and]; omega)⟩
  · rw [runControlWord_ok (i := .verify) rfl]
    have hne : verifyCommand ≠ encodeCommand := by decide
    have hins : ¬ (verifyCommand = encodeCommand ∧ 0 < s.k.toInt) := fun ⟨heq, _⟩ => hne heq
    rw [if_neg hins, if_neg hins]
    have hleads := leads_without_field (i := .verify) rfl h (inserts_verify s)
    rw [if_neg hne] at hleads
    exact ⟨verifyAnswer s, execVerify_legal h, hleads⟩

/-- A word that is no command raises IllegalCommand at S0 (R52). -/
theorem leads_illegal {w : Word} (h0 : w ≠ encodeCommand) (h1 : w ≠ verifyCommand) (s : State) :
    Leads w .s0 s .done (raise .illegalCommand s) (0, 0, 0, 0, 1) :=
  .of_hold (by decide) (by decide) rfl (by rw [engineAct, decodeCmd_illegal h0 h1])

/-- Arguments that are not legal raise InvalidArgument at S1 (R141). -/
theorem leads_violation {w : Word} {i : Instr} {s : State} {c : Cause} (hw : decodeCmd w = .ok i)
    (h : checkArgs s.cap.val s.len.toInt s.k.toInt = some c) :
    Leads w .s0 s .done (raise (.invalidArgument c) s) (0, 0, 0, 0, 2) :=
  have hcheck : Leads w .s1 s .done (raise (.invalidArgument c) s) (0, 0, 0, 0, 1) :=
    .of_hold (by decide) (by decide) rfl (by simp only [engineAct, operandLen, operandK, h])
  (leads_decode hw s).trans hcheck

/-- Every command word's small steps lead to the state that its atomic run answers. -/
theorem leads_of_runControlWord (w : Word) (s : State) :
    ∃ t c, runControlWord (.cmd w) s = .next t ∧ Leads w .s0 s .done t c := by
  by_cases hw : w = encodeCommand ∨ w = verifyCommand
  · cases hc : checkArgs s.cap.val s.len.toInt s.k.toInt with
    | none =>
      obtain ⟨t, hrun, hleads⟩ := leads_legal hw (checkArgs_none.1 hc)
      exact ⟨t, _, hrun, hleads⟩
    | some c =>
      obtain rfl | rfl := hw
      · exact ⟨_, _, (runControlWord_ok (i := .encode) rfl s).trans (exec_violation (.inl rfl) hc),
          leads_violation (i := .encode) rfl hc⟩
      · exact ⟨_, _, (runControlWord_ok (i := .verify) rfl s).trans (exec_violation (.inr rfl) hc),
          leads_violation (i := .verify) rfl hc⟩
  · obtain ⟨h0, h1⟩ := not_or.1 hw
    exact ⟨_, _, runControlWord_error (cw := .cmd w) (decodeCmd_illegal h0 h1) s, leads_illegal h0 h1 s⟩

/-- Settles O50: the small steps lead to the atomic outcome whether the word raises, at S0 or S1, or runs to its end. -/
theorem smallStepsEndInTheAtomicOutcome : Obligations.SmallStepsEndInTheAtomicOutcome := by
  intro s w
  obtain ⟨t, _, hrun, hleads⟩ := leads_of_runControlWord w s
  obtain ⟨n, given, hticks, -⟩ := hleads []
  exact ⟨n, t, given, hticks, hrun⟩

/-- Settles O51: the counts of the lines that lead to the outcome. -/
theorem microOperationCounts : Obligations.MicroOperationCounts := by
  intro s w hw h
  obtain ⟨t, -, hleads⟩ := leads_legal hw h
  obtain ⟨n, given, hticks, hcounts⟩ := hleads []
  rw [show lineCounts [] = 0 from rfl, zero_add, lineCounts] at hcounts
  simp only [Prod.mk.injEq] at hcounts
  obtain ⟨hclear, habsorb, hreduce, hinvert, hlines⟩ := hcounts
  exact ⟨n, _, hticks, rfl, hclear, habsorb, hreduce, hinvert, hlines⟩

end Sys2Proof.Machine
end

section
/-! SUPPORT. What stops a step and what an argument check answers: idle steps, ill-formed inputs, and the STATUS word of
the first violation. -/

namespace Sys2Proof.Machine

theorem step_of_idle {s : State} (h : s.pending = []) : step s = .next s := by
  simp only [step, h]

/-! ### Inputs that stop the machine -/

/-- The ill-formed inputs are the host's accesses to an octet that does not exist (R34). -/
theorem Input.wellFormed_eq_false_iff {cap : Nat} {inp : Input} :
    inp.wellFormed cap = false ↔ ∃ i, cap ≤ i ∧ ((∃ b, inp = .writeBuf i b) ∨ inp = .readBuf i) := by
  cases inp <;> simp [Input.wellFormed]

theorem takeInput_illFormed {inp : Input} {s : State} (h : inp.wellFormed s.cap.val = false) :
    takeInput inp s = .fault .outsideBuffer := by
  obtain ⟨i, hi, ⟨b, rfl⟩ | rfl⟩ := Input.wellFormed_eq_false_iff.1 h
  · rw [takeInput, memWrite_outside hi, settle_error]
  · exact readHostBuf_outside hi

theorem runControlWord_completes (cw : ControlWord) (s : State) : Completes (runControlWord cw s) :=
  (runControlWord_operandsKept cw s).imp fun _ => And.left

theorem writeHostReg_completes (r : HostReg) (w : Word) (s : State) : Completes (writeHostReg r w s) := by
  cases r with
  | cmd => exact runControlWord_completes (.cmd w) s
  | len | k | status | result => exact ⟨_, rfl⟩

theorem takeInput_completes {inp : Input} {s : State} (h : inp.wellFormed s.cap.val = true) :
    Completes (takeInput inp s) := by
  cases inp with
  | writeReg r w => exact writeHostReg_completes r w s
  | readReg r => exact ⟨_, rfl⟩
  | writeBuf i b =>
    have hi : i < s.cap.val := of_decide_eq_true h
    rw [takeInput, memWrite_inside hi]
    exact ⟨_, rfl⟩
  | readBuf i => exact ⟨_, readHostBuf_inside (of_decide_eq_true h)⟩
  | reset => exact ⟨_, rfl⟩
  | aop w => exact runControlWord_completes (.aop w) s
  | ien w => exact runControlWord_completes (.ien w) s

/-! ### The argument check as a STATUS word -/

/-- The STATUS word of the first violation of the argument check (R55, R141), 0 where there is none. -/
def violationStatus (cap : Nat) (len k : Int) : Word :=
  (checkArgs cap len k).elim 0 fun c => exceptionStatus (.invalidArgument c)

/-- The words of the five lines of CHECK_ARGS, in their order (R56, R141). -/
theorem violationStatus_eq (cap : Nat) (len k : Int) : violationStatus cap len k =
    if len < 0 then 0x00000011
    else if (cap : Int) < len then 0x00000021
    else if k < 0 then 0x00000031
    else if len < k then 0x00000041
    else if 0 < k ∧ k = len then 0x00000051
    else 0x00000000 := by
  unfold violationStatus checkArgs
  split_ifs <;> rfl

theorem exceptionStatus_ne_zero (e : Exception) : exceptionStatus e ≠ 0 := fun h =>
  (exceptionStatus_legal e).2 (by rw [h]; rfl)

theorem violationStatus_eq_zero_iff {cap : Nat} {len k : Int} :
    violationStatus cap len k = 0 ↔ LegalArgs cap len k := by
  rw [← checkArgs_none, violationStatus]
  cases checkArgs cap len k with
  | none => exact iff_of_true rfl rfl
  | some c => exact iff_of_false (exceptionStatus_ne_zero (.invalidArgument c)) (Option.some_ne_none c)

/-- A violation found is the exception taken: the STATUS word of the first one, one free value drawn for RESULT, and
nothing else changed (R141, R145). -/
theorem exec_of_violationStatus_ne_zero {i : Instr} {s : State} (hi : i = .encode ∨ i = .verify)
    (h : violationStatus s.cap.val s.len.toInt s.k.toInt ≠ 0) :
    exec i s = .next { s with
      status := violationStatus s.cap.val s.len.toInt s.k.toInt
      result := Config.freeWord s.freeCount
      freeCount := s.freeCount + 1 } := by
  cases hc : checkArgs s.cap.val s.len.toInt s.k.toInt with
  | none => exact absurd (violationStatus_eq_zero_iff.2 (checkArgs_none.1 hc)) h
  | some c => rw [exec_violation hi hc, raise_eq, violationStatus, hc, Option.elim_some]

end Sys2Proof.Machine
end

section
/-! PROOFS. Which instructions and steps complete, which step stops, and what a violated argument check does. -/

namespace Sys2Proof.Machine

/-- Settles O16: the argument check of ENCODE and VERIFY raises, or lets through arguments on which the body answers;
a micro-operation always answers. -/
theorem everyInstructionCompletes : Obligations.EveryInstructionCompletes := fun i s =>
  (exec_operandsKept i s).imp fun _ => And.left

/-- Settles O17: an idle step completes, any other takes one input, which stops it exactly where ill-formed. -/
theorem stepStopsOnlyOutsideBuffer : Obligations.StepStopsOnlyOutsideBuffer := by
  intro s outside
  cases hp : s.pending with
  | nil =>
    have hinside : ¬ outside := by
      rintro ⟨i, rest, -, ⟨b, h⟩ | h⟩ <;> rw [hp] at h <;> cases h
    exact ⟨fun h => absurd h hinside, fun _ => ⟨s, step_of_idle hp⟩⟩
  | cons inp rest =>
    have houtside : outside ↔ inp.wellFormed s.cap.val = false := by
      rw [Input.wellFormed_eq_false_iff]
      constructor
      · rintro ⟨i, _, hi, ⟨b, h⟩ | h⟩ <;> obtain ⟨rfl, -⟩ := List.cons.inj (hp.symm.trans h)
        · exact ⟨i, hi, .inl ⟨b, rfl⟩⟩
        · exact ⟨i, hi, .inr rfl⟩
      · rintro ⟨i, hi, ⟨b, rfl⟩ | rfl⟩
        · exact ⟨i, rest, hi, .inl ⟨b, hp⟩⟩
        · exact ⟨i, rest, hi, .inr hp⟩
    rw [step_of_pending hp, houtside, Bool.not_eq_false]
    exact ⟨takeInput_illFormed (s := s.setPending rest), takeInput_completes (s := s.setPending rest)⟩

/-- Settles O5: where no input is pending, the step takes none. -/
theorem idleStepChangesNothing : Obligations.IdleStepChangesNothing := fun _ => step_of_idle

/-- Settles O14: the word is that of the first violation, which is 0 exactly where the check passes, and which the
exception writes to STATUS where it is not. -/
theorem invalidArgumentTakesException : Obligations.InvalidArgumentTakesException := by
  intro s i w hi hw
  rw [← violationStatus_eq] at hw
  subst hw
  exact ⟨fun h => ⟨_, _, exec_of_violationStatus_ne_zero hi h⟩, violationStatus_eq_zero_iff⟩

end Sys2Proof.Machine
end

section
/-! PROOFS. Steps of two engines, in either order. -/

namespace Sys2Proof.Machine

/-- An engine on another memory, or one that sees the content shown already, is left as it is. -/
theorem showBuffer_eq_self {m : Nat} {l : List Host.Cell} {f : Attached} (h : f.memory = m → f.state.buf = l) :
    showBuffer m l f = f := by
  by_cases hm : f.memory = m
  · rw [showBuffer, if_pos hm, setBuf_self (h hm)]
  · exact showBuffer_other hm l

/-- Two memories' contents are shown in either order, where a shared memory is shown one content. -/
theorem showBuffer_comm {m m' : Nat} {l l' : List Host.Cell} (h : m = m' → l = l') (f : Attached) :
    showBuffer m l (showBuffer m' l' f) = showBuffer m' l' (showBuffer m l f) := by
  by_cases hm : m = m'
  · rw [hm, h hm]
  · by_cases hf : f.memory = m
    · have hf' : f.memory ≠ m' := hf ▸ hm
      rw [showBuffer_other hf', showBuffer_other (f := showBuffer m l f) (by rwa [showBuffer_memory])]
    · rw [showBuffer_other hf, showBuffer_other (f := showBuffer m' l' f) (by rwa [showBuffer_memory])]

theorem stepInstance_of_step {engines : List Attached} {n : Nat} {e : Attached} {t : State}
    (he : engines[n]? = some e) (ht : step e.state = .next t) :
    stepInstance n engines = .next ((engines.map (showBuffer e.memory t.buf)).set n ⟨e.memory, t⟩) := by
  simp only [stepInstance, he, ht, andThen_next]

/-- A step of the list that completes is a step of the engine at its position that completes. -/
theorem step_of_stepInstance {engines after : List Attached} {n : Nat} {e : Attached} (he : engines[n]? = some e)
    (h : stepInstance n engines = .next after) :
    ∃ t, step e.state = .next t ∧ after = (engines.map (showBuffer e.memory t.buf)).set n ⟨e.memory, t⟩ := by
  obtain ⟨hnone, -⟩ | ⟨e', t, he', ht, rfl⟩ := stepInstance_cases h
  · rw [he] at hnone
    cases hnone
  · obtain rfl : e = e' := Option.some.inj (he.symm.trans he')
    exact ⟨t, ht, rfl⟩

/-- A step of the engine at `m` after one of the engine at `n` that `f`, at `m`, does not notice: `f` steps as it would
have before, and what it leaves in its memory is what the engine at `n` holds already where it is the same one. -/
theorem stepInstance_after_step {engines : List Attached} {n m : Nat} {e f : Attached} {t u : State} (hnm : n ≠ m)
    (hf : engines[m]? = some f) (hu : step f.state = .next u)
    (hbefore : f.memory = e.memory → f.state.buf = t.buf) (hafter : e.memory = f.memory → t.buf = u.buf) :
    stepInstance m ((engines.map (showBuffer e.memory t.buf)).set n ⟨e.memory, t⟩) = .next
      (((engines.map (showBuffer f.memory u.buf ∘ showBuffer e.memory t.buf)).set n ⟨e.memory, t⟩).set m
        ⟨f.memory, u⟩) := by
  have hf' : ((engines.map (showBuffer e.memory t.buf)).set n ⟨e.memory, t⟩)[m]? = some f := by
    rw [List.getElem?_set_ne hnm, List.getElem?_map, hf, Option.map_some, showBuffer_eq_self hbefore]
  rw [stepInstance_of_step hf' hu, List.map_set, List.map_map, showBuffer_eq_self hafter]

/-- Settles O54: where the two share a memory, both see the same there, by coherence, and neither step changes it, by
the second condition; so neither step notices the other, and their buffers are shown in either order. -/
theorem instancesAreIndependent : Obligations.InstancesAreIndependent := by
  intro engines a b n m e f hnm hco he hf ha hb hindep
  obtain ⟨t, ht, rfl⟩ := step_of_stepInstance he ha
  obtain ⟨u, hu, rfl⟩ := step_of_stepInstance hf hb
  have hsame (hmem : e.memory = f.memory) : t.buf = f.state.buf ∧ e.state.buf = u.buf ∧ t.buf = u.buf := by
    obtain hne | ⟨t', u', ht', htbuf, hu', hubuf⟩ := hindep
    · exact absurd hmem hne
    · obtain rfl : t = t' := Host.Outcome.next.inj (ht.symm.trans ht')
      obtain rfl : u = u' := Host.Outcome.next.inj (hu.symm.trans hu')
      obtain ⟨hef, -⟩ := hco e (List.mem_of_getElem? he) f (List.mem_of_getElem? hf) hmem
      rw [htbuf, hubuf]
      exact ⟨hef, hef, hef⟩
  have hnm_run := stepInstance_after_step hnm hf hu (fun h => (hsame h.symm).1.symm) fun h => (hsame h).2.2
  have hmn_run := stepInstance_after_step hnm.symm he ht (fun h => (hsame h).2.1) fun h => (hsame h.symm).2.2.symm
  have hcomm : showBuffer e.memory t.buf ∘ showBuffer f.memory u.buf =
      showBuffer f.memory u.buf ∘ showBuffer e.memory t.buf :=
    funext (showBuffer_comm fun h => (hsame h).2.2)
  rw [hcomm, List.set_comm _ _ hnm.symm] at hmn_run
  exact ⟨_, hnm_run, hmn_run⟩

end Sys2Proof.Machine
end

section
/-! PROOFS. The buffers VERIFY cannot tell from a valid one: octets that are 0 modulo 255. -/

namespace Sys2Proof.Machine

/-- Octets that are multiples of 255 add nothing to either sum, whatever their weights (R178). -/
theorem sumsVanish_of_octets_dvd {s : State} (h : ∀ i, i < s.len.toInt.toNat → 255 ∣ octetAt s i) : SumsVanish s := by
  have hplain : 255 ∣ plainSum (octetAt s) s.len.toInt.toNat :=
    Finset.dvd_sum fun i hi => h i (Finset.mem_range.1 hi)
  have hweighted : 255 ∣ weightedSum (octetAt s) s.len.toInt.toNat :=
    Finset.dvd_sum fun i hi => (h i (Finset.mem_range.1 hi)).mul_left _
  exact ⟨Nat.mod_eq_zero_of_dvd hplain, Nat.mod_eq_zero_of_dvd hweighted⟩

/-- Settles O43: `0x00` and `0xFF` are both multiples of 255, so that both sums vanish, as they do on no octets. -/
theorem blindSpotsVerify : Obligations.BlindSpotsVerify := by
  intro s hlegal hblind
  have hdvd : ∀ i, i < s.len.toInt.toNat → 255 ∣ octetAt s i := by
    intro i hi
    obtain h0 | h255 := hblind i hi
    · exact h0 ▸ dvd_zero 255
    · exact h255 ▸ dvd_rfl
  exact ⟨_, execVerify_legal hlegal, verifyAnswer_status s,
    (verifyAnswer_result_eq_one_iff s).2 (sumsVanish_of_octets_dvd hdvd)⟩

end Sys2Proof.Machine
end

section
/-! PROOFS. The decoder and the encoder agree, both ways. -/

namespace Sys2Proof

/-- The two fields make up the whole AOP word (R50). -/
theorem aopWord_fields (w : AopWord) : aopWord (aopField w) (aopOctet w) = w :=
  (BitVec.extractLsb'_append_extractLsb'_eq_extractLsb' rfl).trans BitVec.extractLsb'_eq_self

/-- The encoder writes a word whose fields the decoder reads back (30_encoding.md section 10). -/
theorem decode_encode (i : Instr) : decode (encode i) = .ok i := by
  cases i with
  | aAbs b =>
    have habs : decodeAop (aopWord 0b10 b) = .aAbs b := by
      simp only [decodeAop_eq_iff, aopField_aopWord, aopOctet_aopWord, true_and, or_true, true_or]
    exact congrArg Except.ok habs
  | encode | verify | aHold | aClr | aRed | iHold | iInv => rfl

/-! ### From the word to the instruction and back, format by format -/

theorem encode_of_decodeCmd {w : Word} {i : Instr} (h : decodeCmd w = .ok i) : encode i = .cmd w := by
  obtain ⟨rfl, rfl⟩ | ⟨rfl, rfl⟩ := (decodeCmd_eq_ok_iff w i).1 h <;> rfl

/-- Only A.ABS uses field `b` (R61); for the other three the encoder writes it as 0, as the mask of their rows does. -/
theorem encode_decodeAop (w : AopWord) : encode (decodeAop w) = .aop w ∨
    encode (decodeAop w) = .aop (w &&& 0x300) ∧
      (decodeAop w = .aHold ∨ decodeAop w = .aClr ∨ decodeAop w = .aRed) := by
  rw [aopWord_and_mask]
  obtain ⟨hi, hf⟩ | ⟨hi, hf⟩ | ⟨hi, hf⟩ | ⟨hi, hf⟩ := (decodeAop_eq_iff w _).1 rfl <;> rw [hi, hf]
  · exact .inr ⟨rfl, .inl rfl⟩
  · exact .inr ⟨rfl, .inr (.inl rfl)⟩
  · refine .inl (congrArg ControlWord.aop ?_)
    rw [← hf, aopWord_fields]
  · exact .inr ⟨rfl, .inr (.inr rfl)⟩

theorem encode_decodeIen (w : IenWord) : encode (decodeIen w) = .ien w := by
  obtain ⟨hi, rfl⟩ | ⟨hi, rfl⟩ := (decodeIen_eq_iff w _).1 rfl <;> rw [hi] <;> rfl

/-- Settles O1: the encoder is the decoder's inverse in each format, but for the octet field that A.HOLD, A.CLR and
A.RED ignore. -/
theorem decodeEncodeRoundTrip : Obligations.DecodeEncodeRoundTrip := by
  refine ⟨fun i _ => decode_encode i, fun cw i h => ?_⟩
  cases cw with
  | cmd w => exact .inl (encode_of_decodeCmd h)
  | aop w =>
    obtain rfl : decodeAop w = i := Except.ok.inj h
    exact (encode_decodeAop w).imp_right fun ⟨hmask, hi⟩ => ⟨w, rfl, hmask, hi⟩
  | ien w =>
    obtain rfl : decodeIen w = i := Except.ok.inj h
    exact .inl (encode_decodeIen w)

/-- Settles O3: each word is given, and the decoder evaluates it. -/
theorem specWordsDecode : Obligations.SpecWordsDecode := by
  unfold Obligations.SpecWordsDecode
  decide

end Sys2Proof
end

section
/-! SUPPORT. What a step does with a control word and with the host's accesses to the registers. -/

namespace Sys2Proof.Machine

@[simp] theorem State.setPending_setPending (s : State) (l l' : List Input) :
    (s.setPending l).setPending l' = s.setPending l' := rfl
@[simp] theorem State.setPending_self (s : State) : s.setPending s.pending = s := rfl

/-! ### Control words -/

/-- Each format's input brings its word to the decoder (R50). -/
theorem takeInput_controlWord (cw : ControlWord) (s : State) :
    takeInput (inputOfControlWord cw) s = runControlWord cw s := by
  cases cw <;> rfl

theorem step_controlWord {s : State} {cw : ControlWord} {i : Instr} {rest : List Input}
    (hp : s.pending = inputOfControlWord cw :: rest) (hd : decode cw = .ok i) :
    step s = exec i (s.setPending rest) := by
  rw [step_of_pending hp, takeInput_controlWord, runControlWord_ok hd]

/-- The instruction of a table word is that of the control word it stands for. -/
theorem decodeTableWord_eq_some_iff {nbits w : Nat} {i : Instr} :
    decodeTableWord nbits w = some i ↔ ∃ cw, tableControlWord nbits w = some cw ∧ decode cw = .ok i := by
  unfold decodeTableWord
  cases tableControlWord nbits w with
  | none => simp only [reduceCtorEq, false_and, exists_false]
  | some cw =>
    simp only [Option.some.injEq, exists_eq_left']
    cases decode cw <;> simp [Except.toOption]

/-- A table word placed is the next input, and the step that takes it leaves the inputs as they were. -/
theorem step_withFetchWord {s : State} {nbits w : Nat} {i : Instr} (h : decodeTableWord nbits w = some i) :
    step (s.withFetchWord nbits w) = exec i s := by
  obtain ⟨cw, htable, hd⟩ := decodeTableWord_eq_some_iff.1 h
  have hplaced : s.withFetchWord nbits w = s.setPending (inputOfControlWord cw :: s.pending) := by
    simp only [State.withFetchWord, htable]
  rw [hplaced, step_controlWord (State.setPending_pending s _) hd, State.setPending_setPending, State.setPending_self]

/-! ### Host registers -/

theorem step_writeReg {s : State} {r : HostReg} {w : Word} {rest : List Input}
    (hp : s.pending = .writeReg r w :: rest) : step s = writeHostReg r w (s.setPending rest) :=
  step_of_pending hp

theorem step_writeLen {s : State} {w : Word} {rest : List Input} (hp : s.pending = .writeReg .len w :: rest) :
    step s = .next ((s.setPending rest).setLen w) :=
  step_writeReg hp

theorem step_writeK {s : State} {w : Word} {rest : List Input} (hp : s.pending = .writeReg .k w :: rest) :
    step s = .next ((s.setPending rest).setK w) :=
  step_writeReg hp

theorem step_writeCmd {s : State} {w : Word} {rest : List Input} (hp : s.pending = .writeReg .cmd w :: rest) :
    step s = runControlWord (.cmd w) (s.setPending rest) :=
  step_writeReg hp

theorem step_readReg {s : State} {r : HostReg} {rest : List Input} (hp : s.pending = .readReg r :: rest) :
    step s = .next ((s.setPending rest).deliver (readHostReg s r)) := by
  cases r <;> exact step_of_pending hp

/-- A register reads back the integer written to it where 32 bits express it (R12, R13, R63). -/
theorem hostWord_toInt {v : Int} (h : operandFits v = true) : (hostWord v).toInt = v := by
  simp only [operandFits, Bool.and_eq_true, decide_eq_true_eq] at h
  exact BitVec.toInt_ofInt_eq_self (by omega) (by omega) (by omega)

/-- The three writes of an operation: two set `LEN` and `K`, and the third runs the command on them (R63). -/
theorem step_hostWrites {s : State} {len k : Int} {command : Word} {rest : List Input} {i : Instr}
    (hlen : operandFits len = true) (hk : operandFits k = true) (hd : decodeCmd command = .ok i)
    (hp : s.pending = hostWrites len k command ++ rest) :
    ∃ a b, step s = .next a ∧ step a = .next b ∧ operandLen b = len ∧ operandK b = k ∧
      step b = exec i { s with len := b.len, k := b.k, pending := rest } := by
  refine ⟨_, _, step_writeLen hp, step_writeK rfl, hostWord_toInt hlen, hostWord_toInt hk, ?_⟩
  exact (step_writeCmd rfl).trans (runControlWord_ok (cw := .cmd command) hd _)

/-! ### Reset -/

/-- `CMD` always reads 0 (R14), so that four registers decide whether all five read 0. -/
theorem readHostReg_eq_zero {s : State} (hlen : s.len = 0) (hk : s.k = 0) (hstatus : s.status = 0)
    (hresult : s.result = 0) (r : HostReg) : readHostReg s r = 0 := by
  cases r with
  | len => exact hlen
  | k => exact hk
  | cmd => rfl
  | status => exact hstatus
  | result => exact hresult

/-- SUM over a buffer whose sums vanish gives 0 (R60). -/
theorem sumAnswer_result_eq_zero {s : State} (h : SumsVanish s) : (sumAnswer s).result = 0 := by
  obtain ⟨h0, h1⟩ := (accumulatedLen_sums_zero_iff s).2 h
  rw [sumAnswer_result, combinedValue, h0, h1]
  rfl

/-- With `LEN = 0` there is no octet to sum (R78). -/
theorem sumsVanish_of_len_zero {s : State} (h : s.len = 0) : SumsVanish s :=
  sumsVanish_of_octets_dvd fun i hi => by simp [h] at hi

end Sys2Proof.Machine
end

section
/-! PROOFS. The step runs the decoded instruction, the host's registers and operations, and what reset leaves. -/

namespace Sys2Proof.Machine

/-- Settles O4: the input that brings the word is taken, or was placed and is taken again. -/
theorem stepRunsDecodedInstruction : Obligations.StepRunsDecodedInstruction :=
  ⟨fun _ _ _ _ hp hd _ => step_controlWord hp hd, fun _ _ _ _ h => step_withFetchWord h⟩

/-- Settles O6: each write is the register's own answer, on the state with the input taken. -/
theorem hostRegisterWrites : Obligations.HostRegisterWrites := fun _ _ _ =>
  ⟨step_writeLen, step_writeK, step_writeReg, step_writeReg, step_writeCmd⟩

/-- Settles O7: the read delivers the register's value. -/
theorem hostRegisterReads : Obligations.HostRegisterReads := by
  intro s rest r hp
  rw [step_readReg hp]
  cases r <;> rfl

/-- Settles O10: `LEN` and `K` hold the integers written, and the third write runs the command. -/
theorem hostOperationRunsItsCommand : Obligations.HostOperationRunsItsCommand := by
  intro s rest len k hwf
  obtain ⟨hlen, hk⟩ : operandFits len = true ∧ operandFits k = true := by
    simpa only [HostOp.wellFormed, Bool.and_eq_true] using hwf
  exact ⟨step_hostWrites hlen hk rfl, step_hostWrites hlen hk rfl, rfl⟩

/-- Settles O11: both the state after reset and the event write 0 to the four registers that are stored. -/
theorem resetLeavesHostRegistersZero : Obligations.ResetLeavesHostRegistersZero :=
  ⟨readHostReg_eq_zero rfl rfl rfl rfl, fun _ _ hp =>
    ⟨_, step_of_pending hp, readHostReg_eq_zero rfl rfl rfl rfl, rfl, rfl⟩⟩

/-- Settles O12: the command is ENCODE with `LEN = 0` and `K = 0`, which are legal, and sums no octet. -/
theorem firstCommandAfterReset : Obligations.FirstCommandAfterReset := by
  have hlegal : LegalArgs State.reset.cap.val State.reset.len.toInt State.reset.k.toInt := by decide
  have hstep : step (State.reset.withFetchWord 32 0x00000001) = exec .encode State.reset :=
    step_withFetchWord (by decide)
  exact ⟨_, hstep.trans (execEncode_sum hlegal rfl), sumAnswer_status _,
    sumAnswer_result_eq_zero (sumsVanish_of_len_zero rfl), sumAnswer_buf _⟩

/-- Settles O48: no octet is listed, and STATUS and RESULT are 0. -/
theorem resetMeetsInvariant : Obligations.ResetMeetsInvariant :=
  ⟨⟨State.reset_buf_wf, fun _ h => nomatch h⟩, by decide⟩

end Sys2Proof.Machine
end

section
/-! PROOFS. A.ABS and I.INV from every state, also where a result does not fit its register. -/

namespace Sys2Proof.Machine

/-- A result that fits a 32-bit register is latched exactly (R6). -/
theorem latchWord_toNat {n : Nat} (h : n < 4294967296) (d : Nat) : (latchWord n d).toNat = n := by
  rw [latchWord_fits h, toNat_ofNat_word h]

/-- A result that fits an octet is latched exactly (R95). -/
theorem latchOctet_toNat {v : Int} (h0 : 0 ≤ v) (h1 : v ≤ 255) (d : Nat) : ((latchOctet v d).toNat : Int) = v := by
  rw [latchOctet_fits ⟨h0, h1⟩, toNat_ofInt_octet h0 h1]

/-- `IQ` is always the formula's value, which fits whatever the sums (R93). -/
theorem invert_iq_toNat (len k : Int) (s : State) :
    ((invert len k s).iq.toNat : Int) = iqOf len k s.c0.toNat s.c1.toNat := by
  obtain ⟨hlow, hhigh⟩ := iqOf_range len k s.c0.toNat s.c1.toNat
  exact latchOctet_toNat (by omega) hhigh _

/-- `IR` is the formula's value of the latched `IQ`, where it fits (R94). -/
theorem invert_ir_toNat {len k : Int} {s : State} (h0 : 0 ≤ irOf s.c0.toNat (invert len k s).iq.toNat)
    (h1 : irOf s.c0.toNat (invert len k s).iq.toNat ≤ 255) :
    ((invert len k s).ir.toNat : Int) = irOf s.c0.toNat (invert len k s).iq.toNat := by
  rw [invert_iq_toNat] at h0 h1 ⊢
  exact latchOctet_toNat h0 h1 _

/-- Settles O21: A.ABS latches both sums, the second of the new `C0`, and its frame holds whether they fit or not. -/
theorem absorbCompletesEverywhere : Obligations.AbsorbCompletesEverywhere := fun s b =>
  ⟨_, _, _, congrArg Host.Outcome.next (absorb_frame b s), fun h => latchWord_toNat h _, fun h => latchWord_toNat h _⟩

/-- Settles O27: `IQ` always fits; `IR` is latched from it, exactly where it fits too. -/
theorem invertCompletesEverywhere : Obligations.InvertCompletesEverywhere := fun s =>
  ⟨_, _, _, congrArg Host.Outcome.next (invert_frame (operandLen s) (operandK s) s),
    invert_iq_toNat (operandLen s) (operandK s) s, invert_ir_toNat (s := s)⟩

end Sys2Proof.Machine
end
